-- ==== Sys2Proof/Word.lean ====
section
/-! DEFINITION. The operand word of the block: one 64-bit pattern, bit 0 the least significant (R5, R8, R47). -/

namespace Sys2Proof

/-- The operand: a 64-bit binary64 pattern, read only as bits (R5, R36). -/
abbrev Word := BitVec 64

end Sys2Proof
end

