-- ==== Sys2Proof/Syntax.lean ====
section
/-! DEFINITION. The rows of spec/opcode_table.json as one inductive: DECOMPOSE and its five operand-class rows
(R56, R57). The operands of a row are the bits its `encoding` leaves free. -/

namespace Sys2Proof

/-- One constructor per row of the opcode table. `decompose` is the block's single operation (R44, R56), which any
pattern selects; each other row is that operation on the operands of one class (R50), with the class's free bits. -/
inductive Instr where
  /-- DECOMPOSE (R87): the whole operand. -/
  | decompose (bits : Word)
  /-- DECOMPOSE.Infinity (R90): the sign. -/
  | infinity (sign : BitVec 1)
  /-- DECOMPOSE.QuietNaN (R91): the sign and fraction bits 50:0. -/
  | quietNaN (sign : BitVec 1) (payload : BitVec 51)
  /-- DECOMPOSE.SignalingNaN (R92): the sign and fraction bits 50:0, which are not all zero. -/
  | signalingNaN (sign : BitVec 1) (payload : BitVec 51)
  /-- DECOMPOSE.Denormal (R89): the sign and the fraction, zero included. -/
  | denormal (sign : BitVec 1) (frac : BitVec 52)
  /-- DECOMPOSE.Normal (R88): the sign, a biased exponent from 1 to 2046, and the fraction. -/
  | normal (sign : BitVec 1) (bexp : BitVec 11) (frac : BitVec 52)
  deriving DecidableEq, Repr

/-- The names of the table's rows, for stating a row's mask and match by name (R57). -/
inductive RowName where
  | decompose | infinity | quietNaN | signalingNaN | denormal | normal
  deriving DecidableEq, Repr

/-- The row an instruction is an instance of. -/
def Instr.row : Instr → RowName
  | .decompose _ => .decompose
  | .infinity _ => .infinity
  | .quietNaN _ _ => .quietNaN
  | .signalingNaN _ _ => .signalingNaN
  | .denormal _ _ => .denormal
  | .normal _ _ _ => .normal

/-- Why the control inputs of a cycle start no operation (R45). -/
inductive NoOperation where
  /-- `rst = 1`: the reset row of R45. -/
  | resetCycle
  /-- `rst = 0`, `in_valid = 0`: the idle row of R45. -/
  | idleCycle
  deriving DecidableEq, Repr

end Sys2Proof
end

