-- ==== Sys2Proof/WellFormed.lean ====
section
/-! DEFINITION. The extra conditions the opcode table puts on a row's free bits (R57). A term that fails one stands
for no operand of its row. -/

namespace Sys2Proof

/-- The extra condition of each row (R57): a signaling NaN has a nonzero fraction; a Normal operand has a biased
exponent from 1 to 2046. The other rows have none. -/
def Instr.wellFormed : Instr → Bool
  | .decompose _ => true
  | .infinity _ => true
  | .quietNaN _ _ => true
  | .signalingNaN _ payload => decide (payload ≠ 0#51)
  | .denormal _ _ => true
  | .normal _ bexp _ => decide (1 ≤ bexp.toNat) && decide (bexp.toNat ≤ 2046)

end Sys2Proof
end

