-- ==== Sys2Proof/Decode.lean ====
section
/-! DEFINITION. From the inputs of a cycle to an instruction, and back: the control inputs (R45), the fields of the
operand (R47, R59 to R61), the mask and match of each row (R57), the decoder and the encoder. -/

namespace Sys2Proof

/-- `bits[63]` (R59). -/
def signField (b : Word) : BitVec 1 := b.extractLsb' 63 1

/-- `bits[62:52]` (R60). -/
def bexpField (b : Word) : BitVec 11 := b.extractLsb' 52 11

/-- `bits[51:0]` (R61). -/
def fracField (b : Word) : BitVec 52 := b.extractLsb' 0 52

/-- `bits[50:0]`, the free fraction bits of the two NaN rows of the opcode table. -/
def payloadField (b : Word) : BitVec 51 := b.extractLsb' 0 51

/-- The mask of each row over `in_bits` (R57; DECOMPOSE: R56). -/
def RowName.mask : RowName → Word
  | .decompose => 0x0000000000000000#64
  | .infinity => 0x7FFFFFFFFFFFFFFF#64
  | .quietNaN => 0x7FF8000000000000#64
  | .signalingNaN => 0x7FF8000000000000#64
  | .denormal => 0x7FF0000000000000#64
  | .normal => 0x0000000000000000#64

/-- The match value of each row (R57; DECOMPOSE: R56). -/
def RowName.pattern : RowName → Word
  | .decompose => 0x0000000000000000#64
  | .infinity => 0x7FF0000000000000#64
  | .quietNaN => 0x7FF8000000000000#64
  | .signalingNaN => 0x7FF0000000000000#64
  | .denormal => 0x0000000000000000#64
  | .normal => 0x0000000000000000#64

/-- The extra condition of each row (R57). -/
def RowName.extra : RowName → Word → Bool
  | .signalingNaN, b => fracField b != 0#52
  | .normal, b => decide (1 ≤ (bexpField b).toNat) && decide ((bexpField b).toNat ≤ 2046)
  | .decompose, _ => true
  | .infinity, _ => true
  | .quietNaN, _ => true
  | .denormal, _ => true

/-- A row selects a pattern when `(in_bits & mask) == match` holds together with its extra condition (R57). -/
def RowName.selects (r : RowName) (b : Word) : Bool :=
  (b &&& r.mask == r.pattern) && r.extra b

/-- The instruction a row reads from a pattern: the row's free bits, taken where its encoding puts them. -/
def RowName.operands : RowName → Word → Instr
  | .decompose, b => .decompose b
  | .infinity, b => .infinity (signField b)
  | .quietNaN, b => .quietNaN (signField b) (payloadField b)
  | .signalingNaN, b => .signalingNaN (signField b) (payloadField b)
  | .denormal, b => .denormal (signField b) (fracField b)
  | .normal, b => .normal (signField b) (bexpField b) (fracField b)

/-- What one row reads from a pattern, and nothing where the row does not select it. -/
def decodeRow (r : RowName) (b : Word) : Option Instr :=
  if r.selects b then some (r.operands b) else none

/-- The class row of a pattern: the first of priorities 1 to 5 that selects it (R50, R57). Every pattern has one (R52),
so no pattern is rejected. -/
def classRow (b : Word) : RowName :=
  if RowName.infinity.selects b then .infinity
  else if RowName.quietNaN.selects b then .quietNaN
  else if RowName.signalingNaN.selects b then .signalingNaN
  else if RowName.denormal.selects b then .denormal
  else .normal

/-- The decoder: the class row of the pattern with its operands. Each pattern also reads as `decompose` (R56); the
decoder answers the narrower row, and the two have one effect (DESIGN CHOICE, safe, log 6). -/
def decode (b : Word) : Instr := (classRow b).operands b

/-- Every instruction a pattern stands for: the operation itself, and the operation on the pattern's class (R56). -/
def decodeAll (b : Word) : List Instr := [.decompose b, decode b]

/-- What the inputs of a cycle select, first matching row first (R45): a reset cycle and an idle cycle start no
operation, by name, whatever stands on `in_bits` (R16). -/
def decodeInputs (rst inValid : Bool) (inBits : Word) : Except NoOperation Instr :=
  if rst then .error .resetCycle
  else if inValid then .ok (decode inBits)
  else .error .idleCycle

/-- `{sign, biasedExponent, fraction}`, the operand with these fields (R47, R49). -/
def joinFields (s : BitVec 1) (e : BitVec 11) (f : BitVec 52) : Word := s ++ e ++ f

/-- The pattern of an instruction: the row's fixed bits with its operands in their places (`encoding` of
opcode_table.json; R47). -/
def encode : Instr → Word
  | .decompose b => b
  | .infinity s => joinFields s 0x7FF#11 0#52
  | .quietNaN s f => joinFields s 0x7FF#11 (1#1 ++ f)
  | .signalingNaN s f => joinFields s 0x7FF#11 (0#1 ++ f)
  | .denormal s f => joinFields s 0x000#11 f
  | .normal s e f => joinFields s e f

/-- The host's view of the decoder. An operand is exactly one 64-bit word (R46), so bit 0 of the table's numbering is
bit 0 of `in_bits`. What a table word of another width stands for the spec leaves open: a longer word is refused, and a word
given with fewer than 64 bits is accepted and zero-extended to an operand, `w` itself being taken whole whatever `nbits` says
of it (DESIGN CHOICE, log 14). -/
def decodeTableWord (nbits w : Nat) : Option Instr :=
  if nbits ≤ 64 ∧ w < 2 ^ 64 then some (decode (BitVec.ofNat 64 w)) else none

end Sys2Proof
end

