-- ==== Sys2Proof/Config.lean ====
section
/-! DEFINITION. The one implementation parameter of the block (R6, R7). It is left free: no value is stated anywhere. -/

namespace Sys2Proof

/-- `PIPE_STAGES`, the number of register stages between inputs and outputs (R6): an OPEN natural number
(92_eei_decisions.md D1). It has no body, so no proof can rest on a value of it; 0 is allowed.
DESIGN CHOICE, safe (log 1): only `State.reset` uses it, and statements hold for every number of stages. -/
opaque Config.pipeStages : Nat

end Sys2Proof
end

