-- ==== Sys2Proof/Machine/State.lean ====
section
/-! DEFINITION. The state: the pipeline stages, which are all the state the block has (R21, R27 to R32), the values
standing on its input ports (R13), and the host beside it (R12, R33): the cycles it is still to drive and what it has
read. Everything is plain data. -/

namespace Sys2Proof.Machine

/-- The five statuses (R11, R22). -/
inductive Status where
  | normal | denormal | infinity | quietNaN | signalingNaN
  deriving DecidableEq, Repr

/-- The result of one operation (R22). -/
structure Result where
  status : Status
  /-- Two's complement (R79). -/
  mantissa : BitVec 64
  /-- Two's complement (R82). -/
  exponent2 : BitVec 32
  sign : BitVec 1
  bexp : BitVec 11
  frac : BitVec 52
  deriving DecidableEq, Repr

/-- One stage register `S[k]` (R21). `none` is the spec's own "the model gives it no value" (R17, R23, R112; log 4):
a result of a bubble or of a reset stage, and both fields before an edge has written them. -/
structure Stage where
  /-- `S[k].v`. -/
  v : Option Bool
  /-- `S[k].r`. -/
  r : Option Result
  deriving DecidableEq, Repr

/-- The input ports other than `clk` (R13). One step is one rising edge of `clk`, so `clk` is not held (log 16). -/
structure Inputs where
  rst : Bool
  inValid : Bool
  inBits : Word
  deriving DecidableEq, Repr

/-- One read of the output ports by the host (R33). -/
inductive Read where
  /-- Read `out_valid`. -/
  | outValid
  /-- Read the data outputs, all six at once. -/
  | data
  deriving DecidableEq, Repr

/-- What the host does in one cycle: the inputs it holds stable, and its reads of the outputs, in order (R33). -/
structure HostCycle where
  inputs : Inputs
  reads : List Read
  deriving DecidableEq, Repr

/-- The bits on the data output ports (R14). -/
structure OutPorts where
  outStatus : BitVec 3
  outMantissa : BitVec 64
  outExponent2 : BitVec 32
  outSign : BitVec 1
  outBexp : BitVec 11
  outFrac : BitVec 52
  deriving DecidableEq, Repr

/-- One thing the host has read. -/
inductive Observation where
  | outValid (v : Bool)
  | data (d : OutPorts)
  deriving DecidableEq, Repr

/-- The block and its host (R12). -/
structure State where
  /-- `S[1]`, ..., `S[P]`, first stage first; the length of the list is `P = PIPE_STAGES` (R21; log 1). -/
  stages : List Stage
  /-- What stands on the input ports (R13). -/
  ports : Inputs
  /-- The cycles the host is still to drive, the next one first (R33; log 2). -/
  schedule : List HostCycle
  /-- What the host has read, the latest first (log 18). -/
  log : List Observation
  deriving DecidableEq, Repr

/-- Why a step can stop. The block itself never stops (R97); a host read of an output without a value does. -/
inductive Fault where
  /-- Raised by a host read of `out_valid` while it has no value: after power-up, before a reset edge or `P` edges
  (R112). Safe: the hardware drives some value and goes on. -/
  | outValidWithoutValue
  /-- Raised by a host read of the data outputs while `out_valid` is not 1 (R17, R112). Safe: the hardware drives
  some value and goes on. -/
  | dataWithoutValue
  deriving DecidableEq, Repr

/-- Instructions without a meaning. Every row of the table has one. -/
inductive Refusal where
  /-- Raised by no arm of `exec`: kept for the interface. Safe: the machine would stop by name. -/
  | notModelled (mnemonic : String)
  deriving DecidableEq, Repr

/-- A stage after a reset edge (R34, R110): invalid, its result without a value. -/
def Stage.invalid : Stage := { v := some false, r := none }

/-- A stage before any edge has written it (R112). -/
def Stage.unwritten : Stage := { v := none, r := none }

/-- The inputs of a RESET line (R58). `in_valid` and `in_bits` may be anything there; 0 is a DESIGN CHOICE, unsafe
(log 5). -/
def Inputs.ofReset : Inputs := { rst := true, inValid := false, inBits := 0#64 }

/-- The inputs of an IDLE line (R58), with 0 on `in_bits`, which nothing reads (R16). -/
def Inputs.ofIdle : Inputs := { rst := false, inValid := false, inBits := 0#64 }

/-- The inputs of a DECOMPOSE line (R58). -/
def Inputs.ofOperand (b : Word) : Inputs := { rst := false, inValid := true, inBits := b }

/-- A block of `stages` stages in the cycle after a reset edge (R34), with a host that has nothing left to drive. -/
def State.resetWith (stages : Nat) : State :=
  { stages := List.replicate stages Stage.invalid, ports := .ofReset, schedule := [], log := [] }

/-- A block of `stages` stages at power-up, before the first edge (R112). -/
def State.powerUpWith (stages : Nat) : State :=
  { stages := List.replicate stages Stage.unwritten, ports := .ofReset, schedule := [], log := [] }

/-- The machine right after reset (R34), with the implementation's number of stages (R6). -/
def State.reset : State := State.resetWith Config.pipeStages

end Sys2Proof.Machine
end

