-- ==== Sys2Proof/Machine/Flags.lean ====
section
/-! DEFINITION. The block has no flags (R29). What stands in their place is the status of a result: its computation
(R63 to R69) and its 3-bit code (R54, R55). -/

namespace Sys2Proof.Machine

/-- The status of an operand, from its exponent and fraction fields (R69). -/
def classify (bexp : BitVec 11) (frac : BitVec 52) : Status :=
  if bexp = 0x7FF#11 then
    if frac = 0#52 then .infinity
    else if frac.extractLsb' 51 1 = 1#1 then .quietNaN
    else .signalingNaN
  else if bexp = 0x000#11 then .denormal
  else .normal

/-- The 3-bit code of a status on `out_status` (R54). -/
def Status.code : Status → BitVec 3
  | .normal => 0b000#3
  | .denormal => 0b001#3
  | .infinity => 0b010#3
  | .quietNaN => 0b011#3
  | .signalingNaN => 0b100#3

/-- The status a code stands for; 101, 110 and 111 are reserved and stand for none (R55). -/
def Status.ofCode (c : BitVec 3) : Option Status :=
  if c = 0b000#3 then some .normal
  else if c = 0b001#3 then some .denormal
  else if c = 0b010#3 then some .infinity
  else if c = 0b011#3 then some .quietNaN
  else if c = 0b100#3 then some .signalingNaN
  else none

end Sys2Proof.Machine
end

