-- ==== Sys2Proof/Machine/Operands.lean ====
section
/-! DEFINITION. The operand as the two sub-blocks see it: the signals `fp_decomposer` drives (R20, R59 to R69), and
the numbers and output encodings `fp_mantissa_normalizer` forms from them (R73 to R82). Arithmetic is on `Int`, narrowed
once at the end (R9). -/

namespace Sys2Proof.Machine

/-- The four signals between the sub-blocks (R20). -/
structure DSignals where
  dSign : BitVec 1
  dBexp : BitVec 11
  dFrac : BitVec 52
  dStatus : Status
  deriving DecidableEq, Repr

/-- The sub-block `fp_decomposer`: field extraction and classification (R59 to R61, R69). -/
def fpDecomposer (b : Word) : DSignals :=
  { dSign := signField b, dBexp := bexpField b, dFrac := fracField b,
    dStatus := classify (bexpField b) (fracField b) }

/-- `uint(v)` (R9). -/
def uint {n : Nat} (v : BitVec n) : Int := (v.toNat : Int)

/-- The magnitude of the mantissa: the hidden bit is added for Normal alone (R75). -/
def magnitude (status : Status) (frac : BitVec 52) : Int :=
  match status with
  | .normal => uint frac + 2 ^ 52
  | .denormal => uint frac
  | .infinity => uint frac
  | .quietNaN => uint frac
  | .signalingNaN => uint frac

/-- The sign applied to a magnitude (R78). -/
def applySign (sign : BitVec 1) (mag : Int) : Int := if sign = 1#1 then -mag else mag

/-- `exponent2`, computed for every status (R81). -/
def exponentOf (bexp : BitVec 11) : Int := uint bexp - 1075

/-- `toBits64`, the encoding of `out_mantissa` (R79). -/
def toBits64 (i : Int) : BitVec 64 := BitVec.ofInt 64 i

/-- `toBits32`, the encoding of `out_exponent2` (R82). -/
def toBits32 (i : Int) : BitVec 32 := BitVec.ofInt 32 i

/-- A result from its status, magnitude and raw fields: sign and exponent are applied alike for every class (R78 to R82),
and the raw fields go with it (R18). -/
def assemble (status : Status) (mag : Int) (s : BitVec 1) (e : BitVec 11) (f : BitVec 52) : Result :=
  { status := status, mantissa := toBits64 (applySign s mag), exponent2 := toBits32 (exponentOf e),
    sign := s, bexp := e, frac := f }

/-- The sub-block `fp_mantissa_normalizer` (R73): magnitude, sign and exponent of the signals it is given. -/
def fpMantissaNormalizer (d : DSignals) : Result :=
  assemble d.dStatus (magnitude d.dStatus d.dFrac) d.dSign d.dBexp d.dFrac

/-- `F`, the whole combinational function of the block (R86): the composition of its two sub-blocks (R2). -/
def F (b : Word) : Result := fpMantissaNormalizer (fpDecomposer b)

/-- The bits of a result on the data outputs (R25, R54). -/
def Result.onPorts (r : Result) : OutPorts :=
  { outStatus := r.status.code, outMantissa := r.mantissa, outExponent2 := r.exponent2,
    outSign := r.sign, outBexp := r.bexp, outFrac := r.frac }

end Sys2Proof.Machine
end

