-- ==== Sys2Proof/Machine/Ops.lean ====
section
/-! DEFINITION. The operations on the state that all cycles share: an edge of the stages (R23), the output ports (R25),
and the host's moves (R33). The block takes no exception and returns from none (R97, R103), so there is no operation
for either. -/

namespace Sys2Proof.Machine

/-- The stages after an edge with `rst = 0`: `S[1]` takes the entering stage and each other stage the one before it, all
from their values before the edge (R23). With no stages nothing is kept (R21). -/
def shiftIn (entering : Stage) (stages : List Stage) : List Stage := (entering :: stages).dropLast

/-- A stage that holds the result of an operation (R23). -/
def Stage.holding (r : Result) : Stage := { v := some true, r := some r }

/-- The bubble of an idle cycle: not valid, its result without a value (R23). -/
def Stage.bubble : Stage := { v := some false, r := none }

/-- The host drives the input ports (R33). -/
def State.drive (s : State) (i : Inputs) : State := { s with ports := i }

/-- A cycle that accepts an operand: the pattern stands on the ports with `rst = 0` and `in_valid = 1`, and the edge
takes the operation's result into the pipeline (R23, R24). With no stages the result is on the outputs at once (R25). -/
def State.accept (s : State) (b : Word) (r : Result) : State :=
  { s with ports := .ofOperand b, stages := shiftIn (.holding r) s.stages }

/-- The edge of an idle cycle: a bubble enters (R23). -/
def State.idleEdge (s : State) : State := { s with stages := shiftIn .bubble s.stages }

/-- The edge of a reset cycle: every stage becomes invalid and loses its result (R23, R110). -/
def State.resetEdge (s : State) : State := { s with stages := s.stages.map fun _ => Stage.invalid }

/-- `out_valid`: the valid bit of `S[P]`, or `in_valid & ~rst` when there is no stage (R25). `none` while it has no value
(R112). -/
def State.outValid (s : State) : Option Bool :=
  match s.stages.getLast? with
  | some st => st.v
  | none => some (s.ports.inValid && !s.ports.rst)

/-- The result behind the data outputs: that of `S[P]`, or `F(in_bits)` when there is no stage (R25). It is defined only
while `out_valid = 1` (R17). -/
def State.outResult (s : State) : Option Result :=
  if s.outValid = some true then
    match s.stages.getLast? with
    | some st => st.r
    | none => some (F s.ports.inBits)
  else none

/-- The data outputs (R14, R25). -/
def State.outData (s : State) : Option OutPorts := s.outResult.map Result.onPorts

/-- One host read. It changes nothing of the block (R39); a read of an output without a value faults (R17, R112). -/
def State.readPort (s : State) (k : Read) : Host.Outcome State Fault Refusal :=
  match k with
  | .outValid =>
    match s.outValid with
    | some v => .next { s with log := .outValid v :: s.log }
    | none => .fault .outValidWithoutValue
  | .data =>
    match s.outData with
    | some d => .next { s with log := .data d :: s.log }
    | none => .fault .dataWithoutValue

/-- The reads of one cycle, in order; the first that faults ends the run. -/
def State.readPorts (s : State) : List Read → Host.Outcome State Fault Refusal
  | [] => .next s
  | k :: ks =>
    match s.readPort k with
    | .next s' => s'.readPorts ks
    | .fault f => .fault f
    | .refused r => .refused r

/-- The part of a cycle before its edge: the host drives its inputs and makes its reads of the outputs (R24, R33, R117;
DEDUCED, log 8). -/
def State.beforeEdge (s : State) (c : HostCycle) (rest : List HostCycle) : Host.Outcome State Fault Refusal :=
  ({ s with schedule := rest }.drive c.inputs).readPorts c.reads

end Sys2Proof.Machine
end

