-- ==== Sys2Proof/Machine/Decompose.lean ====
section
/-! DEFINITION. The meaning of each row of the opcode table: DECOMPOSE by `F` (R87), and each class row by its own rule
(R88 to R92). None raises an exception (R97), writes a flag (R29) or touches memory (R35). -/

namespace Sys2Proof.Machine

/-- DECOMPOSE (R87): the result is `F` of the operand. -/
def execDecompose (b : Word) (s : State) : Host.Outcome State Fault Refusal :=
  .next (s.accept b (F b))

/-- DECOMPOSE.Infinity (R90): fraction 0, so mantissa 0 for either sign. -/
def execInfinity (sign : BitVec 1) (s : State) : Host.Outcome State Fault Refusal :=
  .next (s.accept (encode (.infinity sign)) (assemble .infinity 0 sign 0x7FF#11 0#52))

/-- DECOMPOSE.QuietNaN (R91): the mantissa is the raw fraction, whose bit 51 is 1, signed. -/
def execQuietNaN (sign : BitVec 1) (payload : BitVec 51) (s : State) : Host.Outcome State Fault Refusal :=
  .next (s.accept (encode (.quietNaN sign payload))
    (assemble .quietNaN (2 ^ 51 + uint payload) sign 0x7FF#11 (1#1 ++ payload)))

/-- DECOMPOSE.SignalingNaN (R92): the mantissa is the raw fraction, whose bit 51 is 0, signed; it is not quietened (R98). -/
def execSignalingNaN (sign : BitVec 1) (payload : BitVec 51) (s : State) : Host.Outcome State Fault Refusal :=
  .next (s.accept (encode (.signalingNaN sign payload))
    (assemble .signalingNaN (uint payload) sign 0x7FF#11 (0#1 ++ payload)))

/-- DECOMPOSE.Denormal (R89): the mantissa is the fraction, signed; no hidden bit, no shift (R73), and `exponent2` is
-1075, not -1074 (R84; 90_conflicts.md C1). -/
def execDenormal (sign : BitVec 1) (frac : BitVec 52) (s : State) : Host.Outcome State Fault Refusal :=
  .next (s.accept (encode (.denormal sign frac)) (assemble .denormal (uint frac) sign 0x000#11 frac))

/-- DECOMPOSE.Normal (R88): the mantissa is the fraction with the hidden bit restored, signed. -/
def execNormal (sign : BitVec 1) (bexp : BitVec 11) (frac : BitVec 52) (s : State) :
    Host.Outcome State Fault Refusal :=
  .next (s.accept (encode (.normal sign bexp frac)) (assemble .normal (2 ^ 52 + uint frac) sign bexp frac))

end Sys2Proof.Machine
end

