-- ==== Sys2Proof/Machine/Dispatch.lean ====
section
/-! DEFINITION. One arm per row of the opcode table. -/

namespace Sys2Proof.Machine

-- The effect of one instruction: a cycle in which the host presents it with rst = 0 and in_valid = 1 (R45, R87).
def exec (i : Instr) (s : State) : Host.Outcome State Fault Refusal :=
  match i with
  | .decompose b => Sys2Proof.Machine.execDecompose b s
  | .infinity sign => Sys2Proof.Machine.execInfinity sign s
  | .quietNaN sign payload => Sys2Proof.Machine.execQuietNaN sign payload s
  | .signalingNaN sign payload => Sys2Proof.Machine.execSignalingNaN sign payload s
  | .denormal sign frac => Sys2Proof.Machine.execDenormal sign frac s
  | .normal sign bexp frac => Sys2Proof.Machine.execNormal sign bexp frac s

end Sys2Proof.Machine
end

