-- ==== Sys2Proof/Machine/Cycle.lean ====
section
/-! DEFINITION. One clock cycle of the block with its host (R12, R24, R45). -/

namespace Sys2Proof.Machine

/-- The edge of the cycle whose inputs stand on the ports, by the table of R45. -/
def edge (s : State) : Host.Outcome State Fault Refusal :=
  match decodeInputs s.ports.rst s.ports.inValid s.ports.inBits with
  | .ok i => exec i s
  | .error .resetCycle => .next s.resetEdge
  | .error .idleCycle => .next s.idleEdge

/-- One cycle: the host drives the next inputs of its schedule and reads the outputs, then the edge comes. With nothing
left to drive the clock stands still and the stages keep their contents (R109; DEDUCED, safe, log 3). -/
def oneCycle (s : State) : Host.Outcome State Fault Refusal :=
  match s.schedule with
  | [] => .next s
  | c :: rest =>
    match s.beforeEdge c rest with
    | .next s' => edge s'
    | .fault f => .fault f
    | .refused r => .refused r

/-- The cycle of a DECOMPOSE line in which the host reads nothing (R58). -/
def HostCycle.presenting (b : Word) : HostCycle := { inputs := .ofOperand b, reads := [] }

end Sys2Proof.Machine
end

