-- ==== Sys2Proof/Machine/Step.lean ====
section
/-! DEFINITION. The step, and how one operand is placed where the next step takes it. -/

namespace Sys2Proof.Machine

/-- One step is one clock cycle (R12). -/
def step (s : State) : Host.Outcome State Fault Refusal := oneCycle s

/-- The host's next cycle presents the word as an operand and reads nothing (log 2). A word longer than an operand keeps
its low 64 bits, and a shorter one is zero-extended; the number of its bits is not looked at (DESIGN CHOICE, log 14). -/
def State.withFetchWord (s : State) (_nbits w : Nat) : State :=
  { s with schedule := HostCycle.presenting (BitVec.ofNat 64 w) :: s.schedule }

end Sys2Proof.Machine
end

