-- ==== Sys2Proof/Safety.lean ====
section
/-! DEFINITION. Runs, safe hosts, and the invariant of the pipeline, in the terms claims use. -/

namespace Sys2Proof.Machine

/-- `n` cycles, stopping at the first fault or refusal. -/
def run : Nat → State → Host.Outcome State Fault Refusal
  | 0, s => .next s
  | n + 1, s =>
    match step s with
    | .next s' => run n s'
    | .fault f => .fault f
    | .refused r => .refused r

/-- A read that has a value: `out_valid` once it is known, the data outputs while it is 1 (R17, R112). -/
def State.hasValue (s : State) : Read → Prop
  | .outValid => s.outValid ≠ none
  | .data => s.outValid = some true

/-- What the edge of a cycle with `rst = 0` takes into `S[1]` (R23). -/
def HostCycle.entering (c : HostCycle) : Stage :=
  if c.inputs.inValid then .holding (F c.inputs.inBits) else .bubble

/-- What stands in a stage that some edge or none has written: the result of an operand with a valid bit of 1, no result
with a valid bit of 0, or nothing at all (R23, R112). -/
def Stage.Sound (st : Stage) : Prop :=
  (∃ b, st = .holding (F b)) ∨ st = .bubble ∨ st = .unwritten

/-- Every stage is sound. -/
def State.Inv (s : State) : Prop := ∀ st ∈ s.stages, st.Sound

end Sys2Proof.Machine
end

