-- ==== Sys2Proof/Certificates/Slice0/Obligations.lean ====
section
/-! DEFINITION. The statements for the provers, each from a numbered rule of spec/ or from several. -/

open Sys2Proof Sys2Proof.Machine

/-! ## Operand, rows and encodings -/

/-- Words of spec/95_test_vectors.md section 2.3, one or two per row, read as the row's instruction (R57). -/
def Obligations.OperandWordsDecode : Prop :=
  decode 0x400921FB54442D18#64 = .normal 0#1 0x400#11 0x921FB54442D18#52 ∧
  decode 0xC000000000000000#64 = .normal 1#1 0x400#11 0#52 ∧
  decode 0x800FFFFFFFFFFFFF#64 = .denormal 1#1 0xFFFFFFFFFFFFF#52 ∧
  decode 0x0000000000000000#64 = .denormal 0#1 0#52 ∧
  decode 0xFFF0000000000000#64 = .infinity 1#1 ∧
  decode 0x7FF8000000000000#64 = .quietNaN 0#1 0#51 ∧
  decode 0xFFF0000000000001#64 = .signalingNaN 1#1 1#51 ∧
  decodeRow .decompose 0x400921FB54442D18#64 = some (.decompose 0x400921FB54442D18#64)

/-- R49 and the second forms of R59 to R61: the fields are the source's shifts and masks, and put together they are the
operand. -/
def Obligations.FieldsRebuildOperand : Prop :=
  ∀ b : Word,
    (signField b).zeroExtend 64 = (b >>> 63) &&& 1#64 ∧
    (bexpField b).zeroExtend 64 = (b >>> 52) &&& 0x7FF#64 ∧
    (fracField b).zeroExtend 64 = b &&& 0xFFFFFFFFFFFFF#64 ∧
    joinFields (signField b) (bexpField b) (fracField b) = b

/-- Decoding the encoding of a well-formed instruction gives it back, whatever its operands: by its own row, and among the
readings of the word; a class row is also what the decoder answers. That DECOMPOSE is read beside the class row is the
model's choice (DESIGN CHOICE, log 6). -/
def Obligations.DecodeOfEncode : Prop :=
  ∀ i : Instr, i.wellFormed = true →
    decodeRow i.row (encode i) = some i ∧ i ∈ decodeAll (encode i) ∧
    (i.row ≠ .decompose → decode (encode i) = i)

/-- Every reading of a word is a well-formed instruction that encodes to that word, so no bit of an operand is dropped
(R49, R52). -/
def Obligations.EncodeOfDecode : Prop :=
  ∀ (b : Word) (i : Instr), (i ∈ decodeAll b ∨ ∃ r, decodeRow r b = some i) → i.wellFormed = true ∧ encode i = b

/-- Over the masks and match values of R57, every pattern is selected by DECOMPOSE and by exactly one class row, the one
the priorities give (R52, R56, R57, which the spec marks as derived from R50). -/
def Obligations.OneClassRowSelectsEachOperand : Prop :=
  ∀ b : Word, RowName.decompose.selects b = true ∧
    ∀ r : RowName, r ≠ .decompose → (r.selects b = true ↔ r = classRow b)

/-- R50: the class of an operand by its fields; the sign bit takes no part. -/
def Obligations.ClassRowFollowsFields : Prop :=
  ∀ b : Word,
    (classRow b = .infinity ↔ (bexpField b).toNat = 2047 ∧ (fracField b).toNat = 0) ∧
    (classRow b = .quietNaN ↔ (bexpField b).toNat = 2047 ∧ (fracField b).getLsbD 51 = true) ∧
    (classRow b = .signalingNaN ↔
      (bexpField b).toNat = 2047 ∧ (fracField b).getLsbD 51 = false ∧ (fracField b).toNat ≠ 0) ∧
    (classRow b = .denormal ↔ (bexpField b).toNat = 0) ∧
    (classRow b = .normal ↔ 1 ≤ (bexpField b).toNat ∧ (bexpField b).toNat ≤ 2046) ∧
    classRow (b ^^^ 0x8000000000000000#64) = classRow b

/-- The classes as ranges of the operand without its sign bit (R51, which the spec marks as derived; its counts of patterns
are not stated here). -/
def Obligations.ClassRanges : Prop :=
  ∀ b : Word, let n := b.toNat % 2 ^ 63
    (classRow b = .normal ↔ 0x0010000000000000 ≤ n ∧ n ≤ 0x7FEFFFFFFFFFFFFF) ∧
    (classRow b = .denormal ↔ n ≤ 0x000FFFFFFFFFFFFF) ∧
    (classRow b = .infinity ↔ n = 0x7FF0000000000000) ∧
    (classRow b = .signalingNaN ↔ 0x7FF0000000000001 ≤ n ∧ n ≤ 0x7FF7FFFFFFFFFFFF) ∧
    (classRow b = .quietNaN ↔ 0x7FF8000000000000 ≤ n ∧ n ≤ 0x7FFFFFFFFFFFFFFF)

/-! ## Classification and status -/

/-- R63 to R68: the status of an operand by its exponent and fraction fields. -/
def Obligations.StatusFollowsFields : Prop :=
  ∀ b : Word,
    ((F b).status = .infinity ↔ (bexpField b).toNat = 2047 ∧ (fracField b).toNat = 0) ∧
    ((F b).status = .quietNaN ↔ (bexpField b).toNat = 2047 ∧ (fracField b).getLsbD 51 = true) ∧
    ((F b).status = .signalingNaN ↔
      (bexpField b).toNat = 2047 ∧ (fracField b).getLsbD 51 = false ∧ (fracField b).toNat ≠ 0) ∧
    ((F b).status = .denormal ↔ (bexpField b).toNat = 0) ∧
    ((F b).status = .normal ↔ 1 ≤ (bexpField b).toNat ∧ (bexpField b).toNat ≤ 2046)

/-- The classification of `fp_decomposer` (R69) and the class row that the opcode table's masks select (R57) agree. -/
def Obligations.StatusAgreesWithClassRow : Prop :=
  ∀ b : Word,
    ((F b).status = .normal ↔ classRow b = .normal) ∧ ((F b).status = .denormal ↔ classRow b = .denormal) ∧
    ((F b).status = .infinity ↔ classRow b = .infinity) ∧ ((F b).status = .quietNaN ↔ classRow b = .quietNaN) ∧
    ((F b).status = .signalingNaN ↔ classRow b = .signalingNaN)

/-- R54 and R55: the codes of the five statuses; the reserved codes stand for no status, and no state's outputs show
one. -/
def Obligations.StatusCodes : Prop :=
  Status.normal.code = 0b000#3 ∧ Status.denormal.code = 0b001#3 ∧ Status.infinity.code = 0b010#3 ∧
  Status.quietNaN.code = 0b011#3 ∧ Status.signalingNaN.code = 0b100#3 ∧
  (∀ st : Status, Status.ofCode st.code = some st) ∧
  (∀ c : BitVec 3, Status.ofCode c = none ↔ c = 0b101#3 ∨ c = 0b110#3 ∨ c = 0b111#3) ∧
  (∀ (s : State) (d : OutPorts), s.outData = some d → Status.ofCode d.outStatus ≠ none)

/-- Inverting bit 63 leaves the status and every field but the sign alone, and negates the mantissa (R71, which the spec
marks as derived from R69; R78). -/
def Obligations.SignBitOnlyNegatesMantissa : Prop :=
  ∀ b : Word, let c := b ^^^ 0x8000000000000000#64
    (F c).status = (F b).status ∧ (F c).exponent2 = (F b).exponent2 ∧ (F c).bexp = (F b).bexp ∧
    (F c).frac = (F b).frac ∧ (F c).sign = ~~~ (F b).sign ∧ (F c).mantissa.toInt = -(F b).mantissa.toInt

/-! ## Magnitude, mantissa and exponent -/

/-- R74 to R76: the hidden bit is restored for a Normal operand and for no other, and the bounds of the magnitude. -/
def Obligations.MagnitudeOfStatus : Prop :=
  ∀ f : BitVec 52,
    magnitude .normal f = ((f.zeroExtend 64 ||| 1#64 <<< 52).toNat : Int) ∧
    magnitude .normal f = f.toNat + 2 ^ 52 ∧
    2 ^ 52 ≤ magnitude .normal f ∧ magnitude .normal f ≤ 2 ^ 53 - 1 ∧
    magnitude .denormal f = f.toNat ∧ magnitude .denormal f ≤ 2 ^ 52 - 1 ∧
    magnitude .infinity f = f.toNat ∧ magnitude .quietNaN f = f.toNat ∧ magnitude .signalingNaN f = f.toNat ∧
    ∀ st : Status, 0 ≤ magnitude st f ∧ magnitude st f ≤ 2 ^ 53 - 1

/-- The mantissa output is the signed magnitude exactly, and its bits 63:53 are copies of its sign (R79, which the spec
marks as derived from R75 and R78). -/
def Obligations.MantissaNeverOverflows : Prop :=
  ∀ b : Word, let m := applySign (signField b) (magnitude (F b).status (fracField b))
    (F b).mantissa.toInt = m ∧ -(2 ^ 53 - 1) ≤ m ∧ m ≤ 2 ^ 53 - 1 ∧
    (F b).mantissa = (BitVec.ofInt 54 m).signExtend 64

/-- R81, and R82, which the spec marks as derived from it: `exponent2` is the biased exponent less 1075 for every operand,
and its output is that number exactly, sign-extended from 12 bits. -/
def Obligations.ExponentIsBexpLess1075 : Prop :=
  ∀ b : Word, (F b).exponent2.toInt = ((bexpField b).toNat : Int) - 1075 ∧
    -1075 ≤ (F b).exponent2.toInt ∧ (F b).exponent2.toInt ≤ 972 ∧
    (F b).exponent2 = (BitVec.ofInt 12 (((bexpField b).toNat : Int) - 1075)).signExtend 32

/-- R84 (every Denormal operand, zero included, gives -1075), and R83, which the spec marks as derived (every non-finite
operand gives 972); no other operand gives either. -/
def Obligations.ExponentAtTheExtremes : Prop :=
  ∀ b : Word, ((F b).exponent2 = 0xFFFFFBCD#32 ↔ (F b).status = .denormal) ∧
    ((F b).exponent2 = 0x000003CC#32 ↔
      (F b).status = .infinity ∨ (F b).status = .quietNaN ∨ (F b).status = .signalingNaN)

/-! ## The rows of the opcode table: each completes, with the result its rule gives -/

/-- R86: DECOMPOSE completes in every state, for every operand, with the composed function of the two sub-blocks as its
result in the first stage and on the ports the operand. -/
def Obligations.DecomposeCompletes : Prop :=
  ∀ (b : Word) (s : State),
    exec (.decompose b) s = .next
      { s with
        ports := { rst := false, inValid := true, inBits := b }
        stages := shiftIn
          { v := some true
            r := some
              { status := classify (bexpField b) (fracField b)
                mantissa := BitVec.ofInt 64 (if signField b = 1#1
                  then -magnitude (classify (bexpField b) (fracField b)) (fracField b)
                  else magnitude (classify (bexpField b) (fracField b)) (fracField b))
                exponent2 := BitVec.ofInt 32 ((bexpField b).toNat - 1075)
                sign := signField b, bexp := bexpField b, frac := fracField b } }
          s.stages }

/-- R88: DECOMPOSE.Normal completes for every operand of its class. -/
def Obligations.NormalCompletes : Prop :=
  ∀ (sign : BitVec 1) (bexp : BitVec 11) (frac : BitVec 52) (s : State), 1 ≤ bexp.toNat → bexp.toNat ≤ 2046 →
    ∃ r : Result,
      exec (.normal sign bexp frac) s = .next
        { s with
          ports := .ofOperand (joinFields sign bexp frac)
          stages := shiftIn { v := some true, r := some r } s.stages } ∧
      r.status = .normal ∧ r.status.code = 0b000#3 ∧
      r.mantissa.toInt = (-1) ^ sign.toNat * (2 ^ 52 + (frac.toNat : Int)) ∧
      2 ^ 52 ≤ |r.mantissa.toInt| ∧ |r.mantissa.toInt| ≤ 2 ^ 53 - 1 ∧
      r.exponent2.toInt = (bexp.toNat : Int) - 1075 ∧ -1074 ≤ r.exponent2.toInt ∧ r.exponent2.toInt ≤ 971 ∧
      r.sign = sign ∧ r.bexp = bexp ∧ r.frac = frac

/-- R89: DECOMPOSE.Denormal completes for every operand of its class, zero of either sign included. -/
def Obligations.DenormalCompletes : Prop :=
  ∀ (sign : BitVec 1) (frac : BitVec 52) (s : State),
    ∃ r : Result,
      exec (.denormal sign frac) s = .next
        { s with
          ports := .ofOperand (joinFields sign 0#11 frac)
          stages := shiftIn { v := some true, r := some r } s.stages } ∧
      r.status = .denormal ∧ r.status.code = 0b001#3 ∧
      r.mantissa.toInt = (-1) ^ sign.toNat * (frac.toNat : Int) ∧ (frac = 0#52 → r.mantissa = 0#64) ∧
      |r.mantissa.toInt| ≤ 2 ^ 52 - 1 ∧ r.exponent2.toInt = -1075 ∧
      r.sign = sign ∧ r.bexp = 0#11 ∧ r.frac = frac

/-- R90: DECOMPOSE.Infinity completes for either sign, with mantissa 0. -/
def Obligations.InfinityCompletes : Prop :=
  ∀ (sign : BitVec 1) (s : State),
    ∃ r : Result,
      exec (.infinity sign) s = .next
        { s with
          ports := .ofOperand (joinFields sign 0x7FF#11 0#52)
          stages := shiftIn { v := some true, r := some r } s.stages } ∧
      r.status = .infinity ∧ r.status.code = 0b010#3 ∧ r.mantissa = 0#64 ∧ r.exponent2.toInt = 972 ∧
      r.sign = sign ∧ r.bexp = 0x7FF#11 ∧ r.frac = 0#52

/-- R91: DECOMPOSE.QuietNaN completes for every operand of its class. -/
def Obligations.QuietNaNCompletes : Prop :=
  ∀ (sign : BitVec 1) (payload : BitVec 51) (s : State), let frac : BitVec 52 := 1#1 ++ payload
    ∃ r : Result,
      exec (.quietNaN sign payload) s = .next
        { s with
          ports := .ofOperand (joinFields sign 0x7FF#11 frac)
          stages := shiftIn { v := some true, r := some r } s.stages } ∧
      r.status = .quietNaN ∧ r.status.code = 0b011#3 ∧
      r.mantissa.toInt = (-1) ^ sign.toNat * (frac.toNat : Int) ∧
      2 ^ 51 ≤ |r.mantissa.toInt| ∧ |r.mantissa.toInt| ≤ 2 ^ 52 - 1 ∧ r.exponent2.toInt = 972 ∧
      r.sign = sign ∧ r.bexp = 0x7FF#11 ∧ r.frac = frac

/-- R92 and R98: DECOMPOSE.SignalingNaN completes for every operand of its class; the operand is not quietened and nothing
is raised. -/
def Obligations.SignalingNaNCompletes : Prop :=
  ∀ (sign : BitVec 1) (payload : BitVec 51) (s : State), payload ≠ 0#51 → let frac : BitVec 52 := 0#1 ++ payload
    ∃ r : Result,
      exec (.signalingNaN sign payload) s = .next
        { s with
          ports := .ofOperand (joinFields sign 0x7FF#11 frac)
          stages := shiftIn { v := some true, r := some r } s.stages } ∧
      r.status = .signalingNaN ∧ r.status.code = 0b100#3 ∧
      r.mantissa.toInt = (-1) ^ sign.toNat * (frac.toNat : Int) ∧
      1 ≤ |r.mantissa.toInt| ∧ |r.mantissa.toInt| ≤ 2 ^ 51 - 1 ∧ r.exponent2.toInt = 972 ∧
      r.sign = sign ∧ r.bexp = 0x7FF#11 ∧ r.frac = frac ∧ r.frac.getLsbD 51 = false

/-- Each class row is DECOMPOSE on its operands (41_fp_mantissa_normalizer.md section 4), so an operand's class row and
DECOMPOSE have one effect in every state. -/
def Obligations.ClassRowRefinesDecompose : Prop :=
  (∀ (i : Instr) (s : State), i.wellFormed = true → exec i s = exec (.decompose (encode i)) s) ∧
  (∀ (b : Word) (s : State), exec (decode b) s = exec (.decompose b) s)

/-- The frame of all six rows: an operation takes no cycle off the schedule, reads nothing for the host, keeps the number
of stages, and moves each earlier result one stage on, unchanged (R23, R27 to R32). -/
def Obligations.OperationFrame : Prop :=
  ∀ (i : Instr) (s t : State), exec i s = .next t →
    t.schedule = s.schedule ∧ t.log = s.log ∧ t.ports = .ofOperand (encode i) ∧
    t.stages.length = s.stages.length ∧ ∀ k, k + 1 < s.stages.length → t.stages[k + 1]? = s.stages[k]?

/-- R97: no operation raises anything, in any state, for any of the 2^64 operands; each yields a result that `out_valid`
marks valid in the first stage, or on the outputs when there is no stage (the operand then still standing on the ports:
DEDUCED, log 15). -/
def Obligations.NoOperandRaises : Prop :=
  ∀ (b : Word) (s : State), ∃ t, exec (decode b) s = .next t ∧ exec (.decompose b) s = .next t ∧
    (s.stages ≠ [] → t.stages[0]? = some { v := some true, r := some (F b) }) ∧
    (s.stages = [] → t.outValid = some true ∧ t.outData = some (F b).onPorts)

/-! ## Derived properties of the result -/

/-- A Normal operand is `mantissa * 2^exponent2` exactly (R93, which the spec marks as derived, with the value of a pattern
from general knowledge). -/
def Obligations.NormalReconstructs : Prop :=
  ∀ b : Word, (F b).status = .normal →
    ((F b).mantissa.toInt : ℚ) * 2 ^ (F b).exponent2.toInt =
      (-1) ^ (signField b).toNat * (1 + ((fracField b).toNat : ℚ) / 2 ^ 52) * 2 ^ (((bexpField b).toNat : Int) - 1023)

/-- A Denormal operand is `mantissa * 2^(exponent2 + 1)`, so `mantissa * 2^exponent2` is half of it and equals it for zero
alone (R94, which the spec marks as derived, with the value of a pattern from general knowledge; 90_conflicts.md C1). -/
def Obligations.DenormalReconstructsDoubled : Prop :=
  ∀ b : Word, (F b).status = .denormal →
    let value : ℚ := (-1) ^ (signField b).toNat * ((fracField b).toNat : ℚ) * 2 ^ (-1074 : Int)
    ((F b).mantissa.toInt : ℚ) * 2 ^ ((F b).exponent2.toInt + 1) = value ∧
    ((F b).mantissa.toInt : ℚ) * 2 ^ (F b).exponent2.toInt = value / 2 ∧
    (((F b).mantissa.toInt : ℚ) * 2 ^ (F b).exponent2.toInt = value ↔ fracField b = 0#52)

/-- The record of status, mantissa and exponent determines the operand, but for the two zeros and the two infinities
(R95, which the spec marks as derived; 90_conflicts.md C3). -/
def Obligations.ResultDeterminesOperand : Prop :=
  ∀ b c : Word,
    ((F b).status = (F c).status ∧ (F b).mantissa = (F c).mantissa ∧ (F b).exponent2 = (F c).exponent2) ↔
    (b = c ∨
      ((b = 0x0000000000000000#64 ∨ b = 0x8000000000000000#64) ∧
        (c = 0x0000000000000000#64 ∨ c = 0x8000000000000000#64)) ∨
      ((b = 0x7FF0000000000000#64 ∨ b = 0xFFF0000000000000#64) ∧
        (c = 0x7FF0000000000000#64 ∨ c = 0xFFF0000000000000#64)))

/-- For a finite operand other than the zeros the mantissa is nonzero and has the operand's sign (R96, which the spec marks
as derived); for the zeros and infinities it is 0 (R80, derived too). -/
def Obligations.MantissaSign : Prop :=
  ∀ b : Word,
    (((F b).status = .normal ∨ ((F b).status = .denormal ∧ fracField b ≠ 0#52)) →
      (F b).mantissa.toInt ≠ 0 ∧ ((F b).mantissa.toInt < 0 ↔ signField b = 1#1)) ∧
    ((F b).mantissa = 0#64 ↔ b.toNat % 2 ^ 63 = 0 ∨ b.toNat % 2 ^ 63 = 0x7FF0000000000000)

/-! ## One cycle -/

/-- A cycle with an operand on the ports, once the host's reads are done, is the decoded instruction's effect. What the
step adds around it: the cycle comes off the schedule, its inputs stand on the ports, the reads go to the log. -/
def Obligations.StepRunsDecodedOperand : Prop :=
  ∀ (s u : State) (b : Word) (reads : List Read) (rest : List HostCycle),
    s.schedule = { inputs := .ofOperand b, reads := reads } :: rest →
    State.readPorts { s with ports := .ofOperand b, schedule := rest } reads = .next u →
    step s = exec (decode b) u

/-- R45: what the control inputs of a cycle select, the first matching row of the table winning. -/
def Obligations.ControlInputsSelectAction : Prop :=
  ∀ (s u : State) (c : HostCycle) (rest : List HostCycle), s.schedule = c :: rest →
    State.readPorts { s with ports := c.inputs, schedule := rest } c.reads = .next u →
    (c.inputs.rst = true →
      step s = .next { u with stages := List.replicate u.stages.length { v := some false, r := none } }) ∧
    (c.inputs.rst = false → c.inputs.inValid = true → step s = exec (.decompose c.inputs.inBits) u) ∧
    (c.inputs.rst = false → c.inputs.inValid = false →
      step s = .next { u with stages := shiftIn { v := some false, r := none } u.stages })

/-- R23: the update of each stage at an edge, from the values before it. -/
def Obligations.StagesUpdateTogether : Prop :=
  ∀ (s t : State) (c : HostCycle) (rest : List HostCycle), s.schedule = c :: rest → step s = .next t →
    t.stages.length = s.stages.length ∧
    (c.inputs.rst = true → ∀ k, k < s.stages.length → t.stages[k]? = some { v := some false, r := none }) ∧
    (c.inputs.rst = false →
      (s.stages ≠ [] → t.stages[0]? = some
        { v := some c.inputs.inValid, r := if c.inputs.inValid then some (F c.inputs.inBits) else none }) ∧
      ∀ k, k + 1 < s.stages.length → t.stages[k + 1]? = s.stages[k]?)

/-- R25: the output ports, with stages and without. -/
def Obligations.OutputsAreLastStage : Prop :=
  ∀ s : State,
    (∀ (before : List Stage) (last : Stage), s.stages = before ++ [last] →
      s.outValid = last.v ∧
      (last.v = some true → s.outData = last.r.map fun r =>
        { outStatus := r.status.code, outMantissa := r.mantissa, outExponent2 := r.exponent2,
          outSign := r.sign, outBexp := r.bexp, outFrac := r.frac }) ∧
      (last.v ≠ some true → s.outData = none)) ∧
    (s.stages = [] →
      s.outValid = some (s.ports.inValid && !s.ports.rst) ∧
      (s.ports.inValid = true → s.ports.rst = false → s.outData = some (F s.ports.inBits).onPorts) ∧
      (¬ (s.ports.inValid = true ∧ s.ports.rst = false) → s.outData = none))

/-- R16: outside a cycle with `in_valid = 1` and `rst = 0` the value on `in_bits` has no effect on the outcome, the stages,
the outputs or what the host reads. -/
def Obligations.UnusedInBitsHaveNoEffect : Prop :=
  ∀ (s : State) (rst inValid : Bool) (b b' : Word) (reads : List Read) (rest : List HostCycle),
    ¬ (rst = false ∧ inValid = true) →
    let s₁ : State := { s with schedule := ⟨⟨rst, inValid, b⟩, reads⟩ :: rest }
    let s₂ : State := { s with schedule := ⟨⟨rst, inValid, b'⟩, reads⟩ :: rest }
    (∀ f, step s₁ = .fault f ↔ step s₂ = .fault f) ∧
    (∀ t₁, step s₁ = .next t₁ → ∃ t₂, step s₂ = .next t₂ ∧ t₁.stages = t₂.stages ∧ t₁.log = t₂.log ∧
      t₁.schedule = t₂.schedule ∧ t₁.outValid = t₂.outValid ∧ t₁.outData = t₂.outData)

/-- R19: whatever the pipeline holds, a cycle with `in_valid = 1` and `rst = 0` takes its operand in: into the first stage,
or, with no stages, onto the outputs while it stands on the ports. The host reads nothing in the cycle, since a read may
fault (R17). -/
def Obligations.EveryOperandIsAccepted : Prop :=
  ∀ (s : State) (b : Word) (rest : List HostCycle), s.schedule = { inputs := .ofOperand b, reads := [] } :: rest →
    (∃ t, step s = .next t ∧ t.schedule = rest ∧ t.stages.length = s.stages.length ∧
      (s.stages ≠ [] → t.stages[0]? = some { v := some true, r := some (F b) })) ∧
    (s.stages = [] → State.outValid { s with ports := .ofOperand b } = some true ∧
      State.outData { s with ports := .ofOperand b } = some (F b).onPorts)

/-- The host's reads of a cycle have no effect on the block: two cycles that differ in their reads alone leave states that
differ in the log alone, and reading again gives the same (R39). -/
def Obligations.ReadsHaveNoSideEffect : Prop :=
  (∀ (s t₁ t₂ : State) (inputs : Inputs) (reads₁ reads₂ : List Read) (rest : List HostCycle),
    step { s with schedule := ⟨inputs, reads₁⟩ :: rest } = .next t₁ →
    step { s with schedule := ⟨inputs, reads₂⟩ :: rest } = .next t₂ →
    t₁ = { t₂ with log := t₁.log }) ∧
  (∀ (s t : State) (k : Read), s.readPort k = .next t →
    ∃ o, t.log = o :: s.log ∧ t.readPort k = .next { t with log := o :: t.log })

/-- When a cycle faults: exactly when the host makes a read of an output without a value, `out_valid` before it is known or
the data outputs while it is not 1 (R17, R112). A step never refuses, and with an empty schedule it changes nothing, which is
the model's reading of a stopped clock (R109; DEDUCED, log 3). Premise: the pipeline invariant, without which a stage could be
valid and hold no result. -/
def Obligations.FaultsAreReadsWithoutValue : Prop :=
  ∀ s : State, s.Inv →
    (∀ r, step s ≠ .refused r) ∧
    (s.schedule = [] → step s = .next s) ∧
    (∀ (c : HostCycle) (rest : List HostCycle), s.schedule = c :: rest →
      ((∃ f, step s = .fault f) ↔ ∃ k ∈ c.reads, ¬ State.hasValue { s with ports := c.inputs } k))

/-- R17: a cycle with a read of the data outputs while `out_valid` is not 1 faults, with stages or without, and by that
name when it is the cycle's first read; so does one with a read of `out_valid` before it has a value (R112). -/
def Obligations.ReadWithoutValueFaults : Prop :=
  ∀ (s : State) (c : HostCycle) (rest : List HostCycle), s.schedule = c :: rest →
    (.data ∈ c.reads → State.outValid { s with ports := c.inputs } ≠ some true →
      (∃ f, step s = .fault f) ∧ (c.reads.head? = some .data → step s = .fault .dataWithoutValue)) ∧
    (.outValid ∈ c.reads → State.outValid { s with ports := c.inputs } = none →
      (∃ f, step s = .fault f) ∧ (c.reads.head? = some .outValid → step s = .fault .outValidWithoutValue))

/-- With no cycle left to drive the clock stands still: the stages keep their contents (R109). That an empty schedule
stands for a stopped clock is the model's reading (DEDUCED, log 3). -/
def Obligations.StoppedClockKeepsStages : Prop :=
  ∀ (s : State) (n : Nat), s.schedule = [] → run n s = .next s

/-! ## Reset and power-up -/

/-- R110: at an edge with `rst = 1` every stage becomes invalid and loses its result, the operand of the cycle is not
accepted, and `out_valid` is 0 after it; with no stages `rst = 1` forces `out_valid` to 0 while it stands on the ports. -/
def Obligations.ResetEdgeInvalidatesStages : Prop :=
  ∀ (s : State) (inputs : Inputs) (rest : List HostCycle), inputs.rst = true →
    s.schedule = { inputs := inputs, reads := [] } :: rest →
    step s = .next
      { s with
        ports := inputs, schedule := rest
        stages := List.replicate s.stages.length { v := some false, r := none } } ∧
    (s.stages ≠ [] → ∀ t, step s = .next t → t.outValid = some false ∧ t.outData = none) ∧
    (s.stages = [] → State.outValid { s with ports := inputs } = some false ∧
      State.outData { s with ports := inputs } = none)

/-- R111: one edge with `rst = 1` completes a reset, from any state, and more such edges keep every stage invalid,
whatever stands on the other inputs; the first cycle after the last of them accepts an operand. -/
def Obligations.OneResetEdgeCompletesReset : Prop :=
  ∀ (s : State) (cs : List HostCycle) (b : Word) (rest : List HostCycle), cs ≠ [] →
    (∀ c ∈ cs, c.inputs.rst = true ∧ c.reads = []) →
    s.schedule = cs ++ { inputs := .ofOperand b, reads := [] } :: rest →
    ∃ t u, run cs.length s = .next t ∧
      t.stages = List.replicate s.stages.length { v := some false, r := none } ∧
      (s.stages ≠ [] → t.outValid = some false) ∧ step t = .next u ∧
      (s.stages ≠ [] → u.stages[0]? = some { v := some true, r := some (F b) }) ∧
      (s.stages = [] → State.outData { t with ports := .ofOperand b } = some (F b).onPorts)

/-- The state after reset, for the free number of stages (R34, R6): what a RESET line leaves of a machine at power-up. The
values standing on the input ports then are the model's choice (DESIGN CHOICE, log 5). -/
def Obligations.ResetState : Prop :=
  State.reset.stages.length = Config.pipeStages ∧
  (∀ st ∈ State.reset.stages, st.v = some false ∧ st.r = none) ∧
  State.reset.schedule = [] ∧ State.reset.log = [] ∧
  State.reset.outValid = some false ∧ State.reset.outData = none ∧
  ∀ p : Nat, step { State.powerUpWith p with schedule := [{ inputs := .ofReset, reads := [] }] } =
    .next (State.resetWith p)

/-- After a reset edge no result shows for as many cycles as there are stages, whatever is presented meanwhile: an operand
in flight at the edge never appears (R118, R34). -/
def Obligations.ResetDiscardsResultsInFlight : Prop :=
  ∀ (s t : State) (c : HostCycle) (cs rest : List HostCycle), s.schedule = c :: (cs ++ rest) → c.inputs.rst = true →
    cs.length < s.stages.length → run (cs.length + 1) s = .next t → t.outValid = some false ∧ t.outData = none

/-- From power-up, after any cycles, a stage has a value exactly once a reset edge has come or as many edges as its place,
so `out_valid` has one after a reset edge or from cycle `P + 1` (R112). -/
def Obligations.PowerUpValuesAppear : Prop :=
  ∀ (p : Nat) (cs : List HostCycle) (t : State), 1 ≤ p →
    run cs.length { State.powerUpWith p with schedule := cs } = .next t →
    (∀ k, k < p → ((∃ st, t.stages[k]? = some st ∧ st.v ≠ none) ↔
      (∃ c ∈ cs, c.inputs.rst = true) ∨ k + 1 ≤ cs.length)) ∧
    (t.outValid ≠ none ↔ (∃ c ∈ cs, c.inputs.rst = true) ∨ p ≤ cs.length)

/-! ## Many cycles -/

/-- R24: a result is on the outputs, with `out_valid = 1`, as many cycles after its operand as there are stages, provided
no reset edge comes between; and the host that reads then gets it, even in a cycle with `rst = 1`. With no stages it
reads it in the cycle that presents the operand. -/
def Obligations.HostTakesResultAfterPipeStages : Prop :=
  (∀ (s : State) (b : Word) (cs : List HostCycle) (last : Inputs) (rest : List HostCycle),
    s.schedule = { inputs := .ofOperand b, reads := [] } ::
      (cs ++ { inputs := last, reads := [.outValid, .data] } :: rest) →
    cs.length + 1 = s.stages.length → (∀ c ∈ cs, c.inputs.rst = false ∧ c.reads = []) →
    ∃ t u, run s.stages.length s = .next t ∧ t.outValid = some true ∧ t.outData = some (F b).onPorts ∧
      step t = .next u ∧ u.log = .data (F b).onPorts :: .outValid true :: s.log) ∧
  (∀ (s : State) (b : Word) (rest : List HostCycle), s.stages = [] →
    s.schedule = { inputs := .ofOperand b, reads := [.outValid, .data] } :: rest →
    ∃ u, step s = .next u ∧ u.log = .data (F b).onPorts :: .outValid true :: s.log)

/-- R40: results leave in the order their operands entered, each exactly as many cycles later as there are stages, none
dropped and none twice: after any cycles without reset, the outputs are those of the cycle that many back. -/
def Obligations.ResultsLeaveInOrder : Prop :=
  ∀ (s t : State) (cs rest : List HostCycle) (c : HostCycle), s.schedule = cs ++ rest → (∀ d ∈ cs, d.inputs.rst = false) →
    1 ≤ s.stages.length → s.stages.length ≤ cs.length → cs[cs.length - s.stages.length]? = some c →
    run cs.length s = .next t →
    t.outValid = some c.inputs.inValid ∧
    t.outData = if c.inputs.inValid then some (F c.inputs.inBits).onPorts else none

/-- After any cycles without reset the pipeline holds what the latest cycles entered, the latest first, and behind it what
it held before, moved on by as many stages (R23, R40). -/
def Obligations.PipelineHoldsLatestCycles : Prop :=
  ∀ (s t : State) (cs rest : List HostCycle), s.schedule = cs ++ rest → (∀ c ∈ cs, c.inputs.rst = false) →
    run cs.length s = .next t →
    t.stages = ((cs.reverse.map HostCycle.entering) ++ s.stages).take s.stages.length

/-- What the stages hold after as many cycles as there are stages depends on those cycles' inputs alone: not on any earlier
operand, result or reset (R26, R31). -/
def Obligations.PipelineForgetsOlderState : Prop :=
  ∀ (s s' t t' : State) (cs rest rest' : List HostCycle), s.stages.length = s'.stages.length →
    s.schedule = cs ++ rest → s'.schedule = cs ++ rest' → s.stages.length ≤ cs.length →
    run cs.length s = .next t → run cs.length s' = .next t' → t.stages = t'.stages

/-! ## Invariants -/

/-- Every step keeps the pipeline invariant: each stage holds the result `F b` of some operand with its valid bit 1, a
bubble, or nothing yet (R21, R23, R112). -/
def Obligations.StepKeepsPipelineSound : Prop :=
  ∀ s t : State, s.Inv → step s = .next t → t.Inv

/-- The pipeline invariant holds after reset and at power-up, for any number of stages (R34, R112). -/
def Obligations.PipelineSoundAtStart : Prop :=
  State.reset.Inv ∧ ∀ p : Nat, (State.resetWith p).Inv ∧ (State.powerUpWith p).Inv

/-- While `out_valid = 1` the data outputs are the result of one operand, all fields together (R39, R70). Premise: the
pipeline invariant. -/
def Obligations.ValidOutputsAreOneResult : Prop :=
  ∀ s : State, s.Inv → s.outValid = some true → ∃ b : Word, s.outData = some (F b).onPorts

/-- A step keeps the number of stages, takes at most one cycle off the schedule, and adds to the log one entry for each
read of that cycle (R6, R21, R33). -/
def Obligations.StepFrame : Prop :=
  ∀ s t : State, step s = .next t →
    t.stages.length = s.stages.length ∧ t.schedule = s.schedule.tail ∧
    ∃ seen : List Observation, t.log = seen ++ s.log ∧
      seen.length = (s.schedule.head?.map fun c => c.reads.length).getD 0
end

