-- ==== Sys2Proof/Laws/Decode.lean ====
section
/-! SUPPORT. The fields of an operand, and what each row of the opcode table selects, said once on the fields. -/

namespace Sys2Proof

theorem toNat_joinFields (s : BitVec 1) (e : BitVec 11) (f : BitVec 52) :
    (joinFields s e f).toNat = s.toNat * 2 ^ 63 + e.toNat * 2 ^ 52 + f.toNat := by
  have h : (joinFields s e f).toNat = (s ++ e ++ f : BitVec (1 + 11 + 52)).toNat := rfl
  rw [h, BitVec.toNat_append, BitVec.toNat_append, ← Nat.shiftLeft_add_eq_or_of_lt e.isLt,
    ← Nat.shiftLeft_add_eq_or_of_lt f.isLt, Nat.shiftLeft_eq, Nat.shiftLeft_eq]
  ring

theorem toNat_signField (b : Word) : (signField b).toNat = b.toNat / 2 ^ 63 := by
  simp only [signField, BitVec.extractLsb'_toNat, Nat.shiftRight_eq_div_pow]
  omega

theorem toNat_bexpField (b : Word) : (bexpField b).toNat = b.toNat / 2 ^ 52 % 2 ^ 11 := by
  simp only [bexpField, BitVec.extractLsb'_toNat, Nat.shiftRight_eq_div_pow]

theorem toNat_fracField (b : Word) : (fracField b).toNat = b.toNat % 2 ^ 52 := by
  simp [fracField, BitVec.extractLsb'_toNat]

theorem toNat_payloadField (b : Word) : (payloadField b).toNat = b.toNat % 2 ^ 51 := by
  simp [payloadField, BitVec.extractLsb'_toNat]

theorem toNat_topBitAppend (p : BitVec 1) (f : BitVec 51) : (p ++ f : BitVec 52).toNat = p.toNat * 2 ^ 51 + f.toNat := by
  have h : (p ++ f : BitVec 52).toNat = (p ++ f : BitVec (1 + 51)).toNat := rfl
  rw [h, BitVec.toNat_append, ← Nat.shiftLeft_add_eq_or_of_lt f.isLt, Nat.shiftLeft_eq]

@[simp] theorem signField_joinFields (s : BitVec 1) (e : BitVec 11) (f : BitVec 52) :
    signField (joinFields s e f) = s := by
  apply BitVec.eq_of_toNat_eq
  rw [toNat_signField, toNat_joinFields]
  omega

@[simp] theorem bexpField_joinFields (s : BitVec 1) (e : BitVec 11) (f : BitVec 52) :
    bexpField (joinFields s e f) = e := by
  apply BitVec.eq_of_toNat_eq
  rw [toNat_bexpField, toNat_joinFields]
  omega

@[simp] theorem fracField_joinFields (s : BitVec 1) (e : BitVec 11) (f : BitVec 52) :
    fracField (joinFields s e f) = f := by
  apply BitVec.eq_of_toNat_eq
  rw [toNat_fracField, toNat_joinFields]
  omega

/-- Two operands with equal fields are equal. -/
theorem fields_ext {b c : Word} (hs : signField b = signField c) (he : bexpField b = bexpField c)
    (hf : fracField b = fracField c) : b = c := by
  have hs := congrArg BitVec.toNat hs
  have he := congrArg BitVec.toNat he
  have hf := congrArg BitVec.toNat hf
  rw [toNat_signField, toNat_signField] at hs
  rw [toNat_bexpField, toNat_bexpField] at he
  rw [toNat_fracField, toNat_fracField] at hf
  apply BitVec.eq_of_toNat_eq
  omega

theorem eq_iff_fields {b c : Word} :
    b = c ↔ signField b = signField c ∧ bexpField b = bexpField c ∧ fracField b = fracField c :=
  ⟨by rintro rfl; simp, fun h => fields_ext h.1 h.2.1 h.2.2⟩

theorem signField_and (b c : Word) : signField (b &&& c) = signField b &&& signField c := BitVec.extractLsb'_and
theorem bexpField_and (b c : Word) : bexpField (b &&& c) = bexpField b &&& bexpField c := BitVec.extractLsb'_and
theorem fracField_and (b c : Word) : fracField (b &&& c) = fracField b &&& fracField c := BitVec.extractLsb'_and

/-- Masking a fraction to its bit 51 reads that bit. -/
theorem frac_and_top (f : BitVec 52) :
    f &&& 0x8000000000000#52 = if f.extractLsb' 51 1 = 1#1 then 0x8000000000000#52 else 0#52 := by
  have h : f.getLsbD 51 = true ↔ f.extractLsb' 51 1 = 1#1 := by
    rw [BitVec.eq_of_getLsbD_eq_iff]
    constructor
    · intro h i hi
      obtain rfl : i = 0 := by omega
      simpa using h
    · intro h
      simpa using h 0 (by omega)
  rw [show (0x8000000000000#52 : BitVec 52) = BitVec.twoPow 52 51 by decide, BitVec.and_twoPow]
  simp only [h]

/-- The top fraction bit as a bound on the fraction (R65, R66). -/
theorem frac_top_eq_one (f : BitVec 52) : f.extractLsb' 51 1 = 1#1 ↔ 2 ^ 51 ≤ f.toNat := by
  rw [← BitVec.toNat_inj, BitVec.extractLsb'_toNat, Nat.shiftRight_eq_div_pow]
  simp only [BitVec.toNat_ofNat]
  omega

/-- A row selects a pattern when the masked fields are those of its match value and its extra condition holds. -/
theorem selects_iff_fields (r : RowName) (b : Word) :
    r.selects b = true ↔ (signField b &&& signField r.mask = signField r.pattern ∧
      bexpField b &&& bexpField r.mask = bexpField r.pattern ∧
      fracField b &&& fracField r.mask = fracField r.pattern) ∧ r.extra b = true := by
  simp only [RowName.selects, Bool.and_eq_true, beq_iff_eq, eq_iff_fields, signField_and, bexpField_and, fracField_and]

theorem selects_decompose (b : Word) : RowName.decompose.selects b = true := by
  simp [RowName.selects, RowName.mask, RowName.pattern, RowName.extra]

theorem selects_infinity (b : Word) :
    RowName.infinity.selects b = true ↔ bexpField b = 0x7FF#11 ∧ fracField b = 0#52 := by
  rw [selects_iff_fields]
  have h1 : signField RowName.infinity.mask = 0#1 := by decide
  have h2 : bexpField RowName.infinity.mask = BitVec.allOnes 11 := by decide
  have h3 : fracField RowName.infinity.mask = BitVec.allOnes 52 := by decide
  have h4 : signField RowName.infinity.pattern = 0#1 := by decide
  have h5 : bexpField RowName.infinity.pattern = 0x7FF#11 := by decide
  have h6 : fracField RowName.infinity.pattern = 0#52 := by decide
  simp only [h1, h2, h3, h4, h5, h6, BitVec.and_allOnes, BitVec.and_zero, true_and, RowName.extra, and_true]

theorem selects_quietNaN (b : Word) :
    RowName.quietNaN.selects b = true ↔ bexpField b = 0x7FF#11 ∧ (fracField b).extractLsb' 51 1 = 1#1 := by
  rw [selects_iff_fields]
  have h1 : signField RowName.quietNaN.mask = 0#1 := by decide
  have h2 : bexpField RowName.quietNaN.mask = BitVec.allOnes 11 := by decide
  have h3 : fracField RowName.quietNaN.mask = 0x8000000000000#52 := by decide
  have h4 : signField RowName.quietNaN.pattern = 0#1 := by decide
  have h5 : bexpField RowName.quietNaN.pattern = 0x7FF#11 := by decide
  have h6 : fracField RowName.quietNaN.pattern = 0x8000000000000#52 := by decide
  simp only [h1, h2, h3, h4, h5, h6, BitVec.and_allOnes, BitVec.and_zero, true_and, RowName.extra, and_true,
    frac_and_top]
  split <;> simp_all

theorem selects_signalingNaN (b : Word) :
    RowName.signalingNaN.selects b = true ↔
      bexpField b = 0x7FF#11 ∧ (fracField b).extractLsb' 51 1 ≠ 1#1 ∧ fracField b ≠ 0#52 := by
  rw [selects_iff_fields]
  have h1 : signField RowName.signalingNaN.mask = 0#1 := by decide
  have h2 : bexpField RowName.signalingNaN.mask = BitVec.allOnes 11 := by decide
  have h3 : fracField RowName.signalingNaN.mask = 0x8000000000000#52 := by decide
  have h4 : signField RowName.signalingNaN.pattern = 0#1 := by decide
  have h5 : bexpField RowName.signalingNaN.pattern = 0x7FF#11 := by decide
  have h6 : fracField RowName.signalingNaN.pattern = 0#52 := by decide
  simp only [h1, h2, h3, h4, h5, h6, BitVec.and_allOnes, BitVec.and_zero, true_and, RowName.extra, frac_and_top,
    bne_iff_ne]
  split <;> simp_all

theorem selects_denormal (b : Word) : RowName.denormal.selects b = true ↔ bexpField b = 0x000#11 := by
  rw [selects_iff_fields]
  have h1 : signField RowName.denormal.mask = 0#1 := by decide
  have h2 : bexpField RowName.denormal.mask = BitVec.allOnes 11 := by decide
  have h3 : fracField RowName.denormal.mask = 0#52 := by decide
  have h4 : signField RowName.denormal.pattern = 0#1 := by decide
  have h5 : bexpField RowName.denormal.pattern = 0x000#11 := by decide
  have h6 : fracField RowName.denormal.pattern = 0#52 := by decide
  simp only [h1, h2, h3, h4, h5, h6, BitVec.and_allOnes, BitVec.and_zero, true_and, RowName.extra, and_true]

theorem selects_normal (b : Word) :
    RowName.normal.selects b = true ↔ bexpField b ≠ 0x000#11 ∧ bexpField b ≠ 0x7FF#11 := by
  have h : RowName.normal.selects b = RowName.normal.extra b := by
    simp [RowName.selects, RowName.mask, RowName.pattern]
  have h0 : bexpField b = 0x000#11 ↔ (bexpField b).toNat = 0 := by rw [← BitVec.toNat_inj]; rfl
  have h1 : bexpField b = 0x7FF#11 ↔ (bexpField b).toNat = 2047 := by rw [← BitVec.toNat_inj]; rfl
  rw [h, ne_eq, ne_eq, h0, h1]
  simp only [RowName.extra, Bool.and_eq_true, decide_eq_true_eq]
  have := (bexpField b).isLt
  omega

end Sys2Proof
end

