-- ==== Sys2Proof/Laws/Operands.lean ====
section
/-! SUPPORT. What the numbers behind a result can be, and that their encodings lose nothing. -/

namespace Sys2Proof.Machine

theorem applySign_zero (mag : Int) : applySign 0#1 mag = mag := by simp [applySign]
theorem applySign_one (mag : Int) : applySign 1#1 mag = -mag := by simp [applySign]

/-- A sign bit is 0 or 1. -/
theorem sign_cases (s : BitVec 1) : s = 0#1 ∨ s = 1#1 := by
  have h := s.isLt
  rcases Nat.lt_or_ge s.toNat 1 with h0 | h1
  · exact .inl (BitVec.eq_of_toNat_eq (by simp; omega))
  · exact .inr (BitVec.eq_of_toNat_eq (by simp; omega))

/-- The sign does not make a number larger. -/
theorem applySign_bounds (s : BitVec 1) {mag n : Int} (h0 : 0 ≤ mag) (h1 : mag ≤ n) :
    -n ≤ applySign s mag ∧ applySign s mag ≤ n := by
  rcases sign_cases s with rfl | rfl
  · rw [applySign_zero]; omega
  · rw [applySign_one]; omega

/-- A 54-bit number is the value of its 64-bit encoding (R79). -/
theorem toInt_toBits64 {i : Int} (h : -(2 ^ 53) ≤ i ∧ i ≤ 2 ^ 53) : (toBits64 i).toInt = i := by
  rw [toBits64, BitVec.toInt_ofInt, Int.bmod_eq_of_le] <;> omega

/-- A 12-bit number is the value of its 32-bit encoding (R82). -/
theorem toInt_toBits32 {i : Int} (h : -(2 ^ 11) ≤ i ∧ i < 2 ^ 11) : (toBits32 i).toInt = i := by
  rw [toBits32, BitVec.toInt_ofInt, Int.bmod_eq_of_le] <;> omega

theorem uint_bounds {n : Nat} (v : BitVec n) : 0 ≤ uint v ∧ uint v < 2 ^ n := by
  have := v.isLt
  unfold uint
  exact ⟨by omega, by exact_mod_cast this⟩

theorem exponentOf_bounds (e : BitVec 11) : -1075 ≤ exponentOf e ∧ exponentOf e ≤ 972 := by
  have := uint_bounds e
  unfold exponentOf
  omega

theorem magnitude_bounds (st : Status) (f : BitVec 52) : 0 ≤ magnitude st f ∧ magnitude st f ≤ 2 ^ 53 - 1 := by
  have := uint_bounds f
  cases st <;> simp only [magnitude] <;> omega

/-- What `assemble` makes of a magnitude that fits: the signed number, and the exponent (R79, R82). -/
theorem assemble_mantissa (st : Status) {mag : Int} (s : BitVec 1) (e : BitVec 11) (f : BitVec 52)
    (h : 0 ≤ mag ∧ mag ≤ 2 ^ 53 - 1) : (assemble st mag s e f).mantissa.toInt = applySign s mag := by
  have := applySign_bounds s h.1 h.2
  exact toInt_toBits64 (by omega)

theorem assemble_exponent2 (st : Status) (mag : Int) (s : BitVec 1) (e : BitVec 11) (f : BitVec 52) :
    (assemble st mag s e f).exponent2.toInt = exponentOf e := by
  have := exponentOf_bounds e
  exact toInt_toBits32 (by omega)

/-- `F` on the fields of its operand (R86). -/
theorem F_eq (b : Word) : F b =
    assemble (classify (bexpField b) (fracField b)) (magnitude (classify (bexpField b) (fracField b)) (fracField b))
      (signField b) (bexpField b) (fracField b) := rfl

theorem F_status (b : Word) : (F b).status = classify (bexpField b) (fracField b) := rfl
@[simp] theorem F_sign (b : Word) : (F b).sign = signField b := rfl
@[simp] theorem F_bexp (b : Word) : (F b).bexp = bexpField b := rfl
@[simp] theorem F_frac (b : Word) : (F b).frac = fracField b := rfl

end Sys2Proof.Machine
end

