-- ==== Sys2Proof/Laws/State.lean ====
section
/-! SUPPORT. One lemma per field per update of the state. -/

namespace Sys2Proof.Machine

@[simp] theorem State.drive_stages (s : State) (i : Inputs) : (s.drive i).stages = s.stages := rfl
@[simp] theorem State.drive_ports (s : State) (i : Inputs) : (s.drive i).ports = i := rfl
@[simp] theorem State.drive_schedule (s : State) (i : Inputs) : (s.drive i).schedule = s.schedule := rfl
@[simp] theorem State.drive_log (s : State) (i : Inputs) : (s.drive i).log = s.log := rfl

@[simp] theorem State.accept_stages (s : State) (b : Word) (r : Result) :
    (s.accept b r).stages = shiftIn (.holding r) s.stages := rfl
@[simp] theorem State.accept_ports (s : State) (b : Word) (r : Result) : (s.accept b r).ports = .ofOperand b := rfl
@[simp] theorem State.accept_schedule (s : State) (b : Word) (r : Result) : (s.accept b r).schedule = s.schedule := rfl
@[simp] theorem State.accept_log (s : State) (b : Word) (r : Result) : (s.accept b r).log = s.log := rfl

@[simp] theorem State.idleEdge_stages (s : State) : s.idleEdge.stages = shiftIn .bubble s.stages := rfl
@[simp] theorem State.idleEdge_ports (s : State) : s.idleEdge.ports = s.ports := rfl
@[simp] theorem State.idleEdge_schedule (s : State) : s.idleEdge.schedule = s.schedule := rfl
@[simp] theorem State.idleEdge_log (s : State) : s.idleEdge.log = s.log := rfl

@[simp] theorem State.resetEdge_stages (s : State) : s.resetEdge.stages = s.stages.map fun _ => .invalid := rfl
@[simp] theorem State.resetEdge_ports (s : State) : s.resetEdge.ports = s.ports := rfl
@[simp] theorem State.resetEdge_schedule (s : State) : s.resetEdge.schedule = s.schedule := rfl
@[simp] theorem State.resetEdge_log (s : State) : s.resetEdge.log = s.log := rfl

@[simp] theorem State.withFetchWord_stages (s : State) (n w : Nat) : (s.withFetchWord n w).stages = s.stages := rfl
@[simp] theorem State.withFetchWord_ports (s : State) (n w : Nat) : (s.withFetchWord n w).ports = s.ports := rfl
@[simp] theorem State.withFetchWord_schedule (s : State) (n w : Nat) :
    (s.withFetchWord n w).schedule = HostCycle.presenting (BitVec.ofNat 64 w) :: s.schedule := rfl
@[simp] theorem State.withFetchWord_log (s : State) (n w : Nat) : (s.withFetchWord n w).log = s.log := rfl

@[simp] theorem State.resetWith_stages (p : Nat) : (State.resetWith p).stages = List.replicate p Stage.invalid := rfl
@[simp] theorem State.powerUpWith_stages (p : Nat) :
    (State.powerUpWith p).stages = List.replicate p Stage.unwritten := rfl

/-- The outputs are functions of the stages and the ports alone. -/
theorem State.outValid_congr {s t : State} (hs : s.stages = t.stages) (hp : s.ports = t.ports) :
    s.outValid = t.outValid := by
  rw [State.outValid, State.outValid, hs, hp]

theorem State.outData_congr {s t : State} (hs : s.stages = t.stages) (hp : s.ports = t.ports) :
    s.outData = t.outData := by
  obtain ⟨_, _, _, _⟩ := s
  obtain ⟨_, _, _, _⟩ := t
  dsimp only at hs hp
  subst hs hp
  rfl

end Sys2Proof.Machine
end

