-- ==== Sys2Proof/Laws/Ops.lean ====
section
/-! SUPPORT. What the shared operations can do, said once: the shift of the stages, and the host's reads. -/

namespace Sys2Proof.Machine

@[simp] theorem shiftIn_nil (x : Stage) : shiftIn x [] = [] := rfl

theorem shiftIn_length (x : Stage) (l : List Stage) : (shiftIn x l).length = l.length := by
  simp [shiftIn]

/-- After a shift `S[1]` is the entering stage. -/
theorem shiftIn_first (x : Stage) {l : List Stage} (h : l ≠ []) : (shiftIn x l)[0]? = some x := by
  cases l with
  | nil => exact absurd rfl h
  | cons y ys => simp [shiftIn, List.dropLast]

/-- After a shift each further stage is the one before it. -/
theorem shiftIn_next (x : Stage) (l : List Stage) {k : Nat} (h : k + 1 < l.length) :
    (shiftIn x l)[k + 1]? = l[k]? := by
  rw [shiftIn, List.getElem?_dropLast]
  simp [h]

/-- A shift as one list: the entering stage, then the old ones, cut to the number of stages. -/
theorem shiftIn_eq_take (x : Stage) (l : List Stage) : shiftIn x l = (x :: l).take l.length := by
  rw [shiftIn, List.dropLast_eq_take]
  simp

/-- The stages after a shift are the entering one and some from before. -/
theorem mem_shiftIn {x y : Stage} {l : List Stage} (h : y ∈ shiftIn x l) : y = x ∨ y ∈ l := by
  simpa using List.mem_of_mem_dropLast h

theorem State.outValid_of_last {s : State} {st : Stage} (h : s.stages.getLast? = some st) : s.outValid = st.v := by
  simp [State.outValid, h]

theorem State.outData_of_last {s : State} {st : Stage} (h : s.stages.getLast? = some st) (hv : st.v = some true) :
    s.outData = st.r.map Result.onPorts := by
  simp [State.outData, State.outResult, State.outValid, h, hv]

theorem State.outValid_of_no_stage {s : State} (h : s.stages = []) :
    s.outValid = some (s.ports.inValid && !s.ports.rst) := by
  simp [State.outValid, h]

theorem State.outData_of_no_stage {s : State} (h : s.stages = []) (hv : s.outValid = some true) :
    s.outData = some (F s.ports.inBits).onPorts := by
  simp [State.outData, State.outResult, hv, h]

theorem State.outData_of_not_valid {s : State} (h : s.outValid ≠ some true) : s.outData = none := by
  simp [State.outData, State.outResult, h]

/-- What one host read does when it succeeds: it adds to the host's log what the outputs hold, and nothing else. -/
theorem State.readPort_cases {s t : State} {k : Read} (h : s.readPort k = .next t) :
    (∃ v, k = .outValid ∧ s.outValid = some v ∧ t = { s with log := .outValid v :: s.log }) ∨
    (∃ d, k = .data ∧ s.outData = some d ∧ t = { s with log := .data d :: s.log }) := by
  cases k with
  | outValid =>
    simp only [State.readPort] at h
    split at h
    · next v hv => cases h; exact .inl ⟨v, rfl, hv, rfl⟩
    · cases h
  | data =>
    simp only [State.readPort] at h
    split at h
    · next d hd => cases h; exact .inr ⟨d, rfl, hd, rfl⟩
    · cases h

/-- The reads of a cycle leave the block and the schedule alone. -/
theorem State.readPorts_frame {s t : State} {ks : List Read} (h : s.readPorts ks = .next t) :
    t.stages = s.stages ∧ t.ports = s.ports ∧ t.schedule = s.schedule := by
  induction ks generalizing s with
  | nil => cases h; simp
  | cons k ks ih =>
    simp only [State.readPorts] at h
    split at h
    · next s' hs =>
      obtain ⟨v, -, -, rfl⟩ | ⟨d, -, -, rfl⟩ := State.readPort_cases hs <;> simpa using ih h
    · cases h
    · cases h

/-- A read refuses nothing. -/
theorem State.readPorts_not_refused (s : State) (ks : List Read) (r : Refusal) : s.readPorts ks ≠ .refused r := by
  induction ks generalizing s with
  | nil => simp [State.readPorts]
  | cons k ks ih =>
    simp only [State.readPorts]
    split
    · exact ih _
    · simp
    · next r' hr =>
      cases k <;> simp only [State.readPort] at hr <;> split at hr <;> cases hr

/-- Before its edge a cycle stands on the ports, is taken off the schedule, and leaves the stages alone. -/
theorem State.beforeEdge_frame {s t : State} {c : HostCycle} {rest : List HostCycle} (h : s.beforeEdge c rest = .next t) :
    t.stages = s.stages ∧ t.ports = c.inputs ∧ t.schedule = rest := by
  simpa using State.readPorts_frame h

/-- A cycle without reads changes nothing before its edge but the ports and the schedule. -/
theorem State.beforeEdge_quiet (s : State) {c : HostCycle} (rest : List HostCycle) (h : c.reads = []) :
    s.beforeEdge c rest = .next { s with ports := c.inputs, schedule := rest } := by
  rw [State.beforeEdge, h]; rfl

end Sys2Proof.Machine
end

