-- ==== Sys2Proof/Laws/PerInstr.lean ====
section
/-! SUPPORT. For every instruction, that the pattern it encodes to is one its row of the opcode table selects. -/

namespace Sys2Proof.Laws.SelectedByItsRow

open Sys2Proof

/-- The row of a well-formed instruction selects the pattern it encodes to (R57). -/
def Statement (i : Instr) : Prop := i.wellFormed = true → i.row.selects (encode i) = true

theorem decompose (bits : Word) : Statement (.decompose bits) := fun _ => selects_decompose bits

theorem infinity (sign : BitVec 1) : Statement (.infinity sign) := fun _ => by
  simp [Instr.row, encode, selects_infinity]

theorem quietNaN (sign : BitVec 1) (payload : BitVec 51) : Statement (.quietNaN sign payload) := fun _ => by
  simp only [Instr.row, encode, selects_quietNaN, bexpField_joinFields, fracField_joinFields, frac_top_eq_one,
    toNat_topBitAppend]
  exact ⟨trivial, by simp⟩

theorem signalingNaN (sign : BitVec 1) (payload : BitVec 51) : Statement (.signalingNaN sign payload) := fun h => by
  have h0 : payload.toNat ≠ 0 := by
    simpa [Instr.wellFormed, ← BitVec.toNat_inj] using h
  have hp := payload.isLt
  simp only [Instr.row, encode, selects_signalingNaN, bexpField_joinFields, fracField_joinFields, frac_top_eq_one, ne_eq,
    toNat_topBitAppend]
  refine ⟨trivial, by simp; omega, fun hz => h0 ?_⟩
  have := congrArg BitVec.toNat hz
  rw [toNat_topBitAppend] at this
  simpa using this

theorem denormal (sign : BitVec 1) (frac : BitVec 52) : Statement (.denormal sign frac) := fun _ => by
  simp [Instr.row, encode, selects_denormal]

theorem normal (sign : BitVec 1) (bexp : BitVec 11) (frac : BitVec 52) : Statement (.normal sign bexp frac) :=
  fun h => by
  simp only [Instr.wellFormed, Bool.and_eq_true, decide_eq_true_eq] at h
  simp only [Instr.row, encode, selects_normal, bexpField_joinFields, ne_eq, ← BitVec.toNat_inj, BitVec.toNat_ofNat]
  omega

end Sys2Proof.Laws.SelectedByItsRow
end

