-- ==== Sys2Proof/Laws/Step.lean ====
section
/-! SUPPORT. What an instruction, an edge and a step can do, said once. -/

namespace Sys2Proof.Machine

/-- Every instruction is one accepted operand: it answers a next state, with some result in the pipeline. -/
theorem exec_accepts (i : Instr) (s : State) : ∃ r, exec i s = .next (s.accept (encode i) r) := by
  cases i <;> exact ⟨_, rfl⟩

/-- The edges of a cycle, by the table of R45. -/
theorem edge_reset {s : State} (h : s.ports.rst = true) : edge s = .next s.resetEdge := by
  simp [edge, decodeInputs, h]

theorem edge_operand {s : State} (hr : s.ports.rst = false) (hv : s.ports.inValid = true) :
    edge s = exec (decode s.ports.inBits) s := by
  simp [edge, decodeInputs, hr, hv]

theorem edge_idle {s : State} (hr : s.ports.rst = false) (hv : s.ports.inValid = false) :
    edge s = .next s.idleEdge := by
  simp [edge, decodeInputs, hr, hv]

/-- The edge comes in every cycle. -/
theorem edge_answers (s : State) : ∃ t, edge s = .next t := by
  cases hr : s.ports.rst
  · cases hv : s.ports.inValid
    · exact ⟨_, edge_idle hr hv⟩
    · obtain ⟨r, h⟩ := exec_accepts (decode s.ports.inBits) s
      exact ⟨_, (edge_operand hr hv).trans h⟩
  · exact ⟨_, edge_reset hr⟩

theorem step_stopped {s : State} (h : s.schedule = []) : step s = .next s := by
  simp [step, oneCycle, h]

/-- A cycle whose reads succeed goes on to its edge. -/
theorem step_of_beforeEdge {s t : State} {c : HostCycle} {rest : List HostCycle} (h : s.schedule = c :: rest)
    (hb : s.beforeEdge c rest = .next t) : step s = edge t := by
  simp [step, oneCycle, h, hb]

/-- What a step can do when it answers a next state: nothing with the clock stopped, or one cycle. -/
theorem step_cases {s t : State} (h : step s = .next t) :
    (s.schedule = [] ∧ t = s) ∨
    ∃ c rest s', s.schedule = c :: rest ∧ s.beforeEdge c rest = .next s' ∧ edge s' = .next t := by
  cases hs : s.schedule with
  | nil => rw [step_stopped hs] at h; cases h; exact .inl ⟨rfl, rfl⟩
  | cons c rest =>
    right
    cases hb : s.beforeEdge c rest with
    | next s' => exact ⟨c, rest, s', rfl, hb, (step_of_beforeEdge hs hb).symm.trans h⟩
    | fault f => simp [step, oneCycle, hs, hb] at h
    | refused r => simp [step, oneCycle, hs, hb] at h

theorem run_zero (s : State) : run 0 s = .next s := rfl

theorem run_succ {s t : State} (n : Nat) (h : step s = .next t) : run (n + 1) s = run n t := by
  simp [run, h]

/-- A run of one cycle and more is a step and the rest of the run. -/
theorem run_succ_cases {s t : State} {n : Nat} (h : run (n + 1) s = .next t) :
    ∃ u, step s = .next u ∧ run n u = .next t := by
  simp only [run] at h
  cases hs : step s with
  | next u => rw [hs] at h; exact ⟨u, rfl, h⟩
  | fault f => rw [hs] at h; cases h
  | refused r => rw [hs] at h; cases h

end Sys2Proof.Machine
end

