-- ==== Sys2Proof/Tests/Slice0.lean ====
section
/-! SUPPORT. Small tests. Expected values are those of spec/95_test_vectors.md (the row is named in each comment) or of the
rule named; then, for each statement with hypotheses, a state and operands that meet them. -/

namespace Sys2Proof.Tests

open Sys2Proof Sys2Proof.Machine

/-! ### WellFormed refuses what the extra conditions of R57 refuse -/

theorem test_signalingNaN_needs_payload : Instr.wellFormed (.signalingNaN 0#1 0#51) = false := by decide
theorem test_normal_bexp_not_zero : Instr.wellFormed (.normal 0#1 0#11 5#52) = false := by decide
theorem test_normal_bexp_not_2047 : Instr.wellFormed (.normal 0#1 0x7FF#11 5#52) = false := by decide
theorem test_wellFormed_boundaries :
    Instr.wellFormed (.normal 1#1 1#11 0#52) = true ∧ Instr.wellFormed (.normal 0#1 2046#11 0#52) = true ∧
    Instr.wellFormed (.signalingNaN 0#1 1#51) = true ∧ Instr.wellFormed (.quietNaN 0#1 0#51) = true ∧
    Instr.wellFormed (.infinity 1#1) = true ∧ Instr.wellFormed (.denormal 1#1 0#52) = true ∧
    Instr.wellFormed (.decompose 0#64) = true := by decide

/-! ### Decoding: words written out bit by bit from the rows' encodings (sign, 11 exponent bits, 52 fraction bits) -/

-- DECOMPOSE, encoding s e e.. f f..: any word (R52).
theorem test_decode_decompose :
    decodeRow .decompose 0b1100000000001000000000000000000000000000000000000000000000000001#64 =
      some (.decompose 0xC008000000000001#64) := by decide
-- s111111111110000...0
theorem test_decode_infinity :
    decode 0b1111111111110000000000000000000000000000000000000000000000000000#64 = .infinity 1#1 ∧
    decode 0b0111111111110000000000000000000000000000000000000000000000000000#64 = .infinity 0#1 := by decide
-- s111111111111fff...f
theorem test_decode_quietNaN :
    decode 0b0111111111111000000000000000000000000000000000000000000000000101#64 = .quietNaN 0#1 5#51 ∧
    decode 0b1111111111111111111111111111111111111111111111111111111111111111#64 =
      .quietNaN 1#1 0x7FFFFFFFFFFFF#51 := by decide
-- s111111111110fff...f with a nonzero fraction; the least and the greatest (2.2-9, 2.2-10)
theorem test_decode_signalingNaN :
    decode 0b0111111111110000000000000000000000000000000000000000000000000001#64 = .signalingNaN 0#1 1#51 ∧
    decode 0b1111111111110111111111111111111111111111111111111111111111111111#64 =
      .signalingNaN 1#1 0x7FFFFFFFFFFFF#51 := by decide
-- s00000000000fff...f, zero included (R67)
theorem test_decode_denormal :
    decode 0b1000000000000000000000000000000000000000000000000000000000000000#64 = .denormal 1#1 0#52 ∧
    decode 0b0000000000001000000000000000000000000000000000000000000000000011#64 =
      .denormal 0#1 0x8000000000003#52 := by decide
-- seeeeeeeeeeefff...f with an exponent from 1 to 2046 (2.2-4, 2.2-5)
theorem test_decode_normal :
    decode 0b0000000000010000000000000000000000000000000000000000000000000000#64 = .normal 0#1 1#11 0#52 ∧
    decode 0b0111111111101111111111111111111111111111111111111111111111111111#64 =
      .normal 0#1 2046#11 0xFFFFFFFFFFFFF#52 := by decide

-- 2.1-10: the three fields of 0x400921FB54442D18.
theorem test_fields :
    signField 0x400921FB54442D18#64 = 0#1 ∧ bexpField 0x400921FB54442D18#64 = 0x400#11 ∧
    fracField 0x400921FB54442D18#64 = 0x921FB54442D18#52 := by decide

theorem test_encode :
    encode (.decompose 0x0123456789ABCDEF#64) = 0x0123456789ABCDEF#64 ∧
    encode (.infinity 1#1) = 0xFFF0000000000000#64 ∧ encode (.quietNaN 0#1 0#51) = 0x7FF8000000000000#64 ∧
    encode (.signalingNaN 1#1 1#51) = 0xFFF0000000000001#64 ∧
    encode (.denormal 1#1 0xFFFFFFFFFFFFF#52) = 0x800FFFFFFFFFFFFF#64 ∧
    encode (.normal 1#1 0x400#11 0#52) = 0xC000000000000000#64 := by decide

-- R45: reset over in_valid, idle by name.
theorem test_decodeInputs :
    (match decodeInputs true true 0x3FF0000000000000#64 with | .error e => some e | .ok _ => none) = some .resetCycle ∧
    (match decodeInputs false false 0x3FF0000000000000#64 with | .error e => some e | .ok _ => none) = some .idleCycle ∧
    (match decodeInputs false true 0x3FF0000000000000#64 with | .error _ => none | .ok i => some i) =
      some (.normal 0#1 0x3FF#11 0#52) := by decide

theorem test_decodeTableWord :
    decodeTableWord 64 0x7FF0000000000000 = some (.infinity 0#1) ∧ decodeTableWord 64 (2 ^ 64) = none ∧
    decodeTableWord 64 0x0010000000000000 = some (.normal 0#1 1#11 0#52) := by decide

/-! ### One instruction on a block of one stage, and on one of none -/

/-- The state an outcome holds. -/
def stateOf (o : Host.Outcome State Fault Refusal) : Option State :=
  match o with
  | .next s => some s
  | .fault _ => none
  | .refused _ => none

/-- The fault an outcome holds. -/
def faultOf (o : Host.Outcome State Fault Refusal) : Option Fault :=
  match o with
  | .fault f => some f
  | .next _ => none
  | .refused _ => none

/-- What is on the data outputs after one instruction on a reset block of `p` stages. -/
def shown (p : Nat) (i : Instr) : Option OutPorts := (stateOf (exec i (State.resetWith p))).bind State.outData

-- 2.3-13 and 2.3-2, read by DECOMPOSE.
theorem test_decompose_pi : shown 1 (.decompose 0x400921FB54442D18#64) =
    some ⟨0b000#3, 0x001921FB54442D18#64, 0xFFFFFFCD#32, 0#1, 0x400#11, 0x921FB54442D18#52⟩ := by decide
theorem test_decompose_minus_zero : shown 0 (.decompose 0x8000000000000000#64) =
    some ⟨0b001#3, 0#64, 0xFFFFFBCD#32, 1#1, 0#11, 0#52⟩ := by decide
-- 2.3-33.
theorem test_infinity_minus : shown 1 (.infinity 1#1) =
    some ⟨0b010#3, 0#64, 0x000003CC#32, 1#1, 0x7FF#11, 0#52⟩ := by decide
-- 2.3-17 and 2.3-39.
theorem test_quietNaN_usual : shown 1 (.quietNaN 0#1 0#51) =
    some ⟨0b011#3, 0x0008000000000000#64, 0x000003CC#32, 0#1, 0x7FF#11, 0x8000000000000#52⟩ := by decide
theorem test_quietNaN_all_ones : shown 1 (.quietNaN 1#1 0x7FFFFFFFFFFFF#51) =
    some ⟨0b011#3, 0xFFF0000000000001#64, 0x000003CC#32, 1#1, 0x7FF#11, 0xFFFFFFFFFFFFF#52⟩ := by decide
-- 2.3-35 and 2.3-36.
theorem test_signalingNaN_largest : shown 1 (.signalingNaN 0#1 0x7FFFFFFFFFFFF#51) =
    some ⟨0b100#3, 0x0007FFFFFFFFFFFF#64, 0x000003CC#32, 0#1, 0x7FF#11, 0x7FFFFFFFFFFFF#52⟩ := by decide
theorem test_signalingNaN_minus_smallest : shown 0 (.signalingNaN 1#1 1#51) =
    some ⟨0b100#3, 0xFFFFFFFFFFFFFFFF#64, 0x000003CC#32, 1#1, 0x7FF#11, 1#52⟩ := by decide
-- 2.3-24 and 2.3-25: no shift, exponent -1075.
theorem test_denormal_minus_largest : shown 1 (.denormal 1#1 0xFFFFFFFFFFFFF#52) =
    some ⟨0b001#3, 0xFFF0000000000001#64, 0xFFFFFBCD#32, 1#1, 0#11, 0xFFFFFFFFFFFFF#52⟩ := by decide
theorem test_denormal_no_shift : shown 1 (.denormal 0#1 0x8000000000000#52) =
    some ⟨0b001#3, 0x0008000000000000#64, 0xFFFFFBCD#32, 0#1, 0#11, 0x8000000000000#52⟩ := by decide
-- 2.3-16 and 2.3-14.
theorem test_normal_lowest : shown 1 (.normal 1#1 0x7FE#11 0xFFFFFFFFFFFFF#52) =
    some ⟨0b000#3, 0xFFE0000000000001#64, 0x000003CB#32, 1#1, 0x7FE#11, 0xFFFFFFFFFFFFF#52⟩ := by decide
theorem test_normal_least : shown 0 (.normal 0#1 1#11 0#52) =
    some ⟨0b000#3, 0x0010000000000000#64, 0xFFFFFBCE#32, 0#1, 1#11, 0#52⟩ := by decide

/-! ### One cycle of a block of two stages (2.5) -/

/-- `S[k] = (1, r(x))`. -/
def full (b : Word) : Stage := { v := some true, r := some (F b) }

/-- A block with these stages whose host drives one cycle. -/
def driven (stages : List Stage) (inputs : Inputs) (reads : List Read) : State :=
  { stages := stages, ports := .ofIdle, schedule := [{ inputs := inputs, reads := reads }], log := [] }

/-- The stages after one step. -/
def stagesAfter (stages : List Stage) (inputs : Inputs) : Option (List Stage) :=
  (stateOf (step (driven stages inputs []))).map (·.stages)

-- 2.5-1 to 2.5-6, with a = 0, b = 1 and c = 2 as operands.
theorem test_row_2_5_1 : stagesAfter [.unwritten, .unwritten] ⟨true, true, 7#64⟩ = some [.bubble, .bubble] := by decide
theorem test_row_2_5_2 : stagesAfter [.unwritten, .unwritten] (.ofOperand 0#64) = some [full 0#64, .unwritten] := by decide
theorem test_row_2_5_4 : stagesAfter [full 0#64, .bubble] .ofIdle = some [.bubble, full 0#64] := by decide
theorem test_row_2_5_5 : stagesAfter [full 1#64, full 0#64] ⟨true, true, 2#64⟩ = some [.bubble, .bubble] := by decide
theorem test_row_2_5_6 : stagesAfter [full 1#64, full 0#64] (.ofOperand 2#64) = some [full 2#64, full 1#64] := by decide

-- 2.5-7 to 2.5-9: no stages.
theorem test_row_2_5_7 : (stateOf (step (driven [] (.ofOperand 0x3FF0000000000000#64) [.outValid, .data]))).map (·.log) =
    some [.data ⟨0b000#3, 0x0010000000000000#64, 0xFFFFFFCC#32, 0#1, 0x3FF#11, 0#52⟩, .outValid true] := by decide
theorem test_row_2_5_8 : (stateOf (step (driven [] ⟨true, true, 0x3FF0000000000000#64⟩ [.outValid]))).map (·.log) =
    some [.outValid false] := by decide
theorem test_row_2_5_9 : (State.outData { driven [] .ofIdle [] with ports := .ofIdle }) = none := by decide

-- 3.2, cycle 4: the result is still on the outputs in a cycle with rst = 1.
theorem test_read_in_reset_cycle : (stateOf (step (driven [.bubble, full 0x7FF8000000000000#64] .ofReset [.data]))).map
    (·.log) = some [.data ⟨0b011#3, 0x0008000000000000#64, 0x000003CC#32, 0#1, 0x7FF#11, 0x8000000000000#52⟩] := by decide

-- R17, R112: reads without a value.
theorem test_data_read_faults : faultOf (step (driven [full 0#64, .bubble] .ofIdle [.data])) = some .dataWithoutValue := by
  decide
theorem test_valid_read_faults : faultOf (step (driven [full 0#64, .unwritten] .ofIdle [.outValid])) =
    some .outValidWithoutValue := by decide
theorem test_data_read_faults_without_stages :
    faultOf (step (driven [] ⟨true, true, 0#64⟩ [.data])) = some .dataWithoutValue := by decide

-- The first instruction after reset, whatever the number of stages.
theorem test_first_after_reset : (stateOf (step (State.reset.withFetchWord 64 0xC000000000000000))).map (·.ports) =
    some (.ofOperand 0xC000000000000000#64) := by decide

/-! ### Reserved codes (R55) -/

theorem test_reserved_codes :
    Status.ofCode 0b101#3 = none ∧ Status.ofCode 0b110#3 = none ∧ Status.ofCode 0b111#3 = none := by decide

/-! ### Witnesses: what meets the hypotheses of each statement that has some -/

theorem witness_DecodeOfEncode : (Instr.normal 1#1 2046#11 7#52).wellFormed = true ∧
    (Instr.normal 1#1 2046#11 7#52).row ≠ .decompose ∧ (Instr.decompose 7#64).wellFormed = true := by decide
theorem witness_EncodeOfDecode : Instr.decompose 5#64 ∈ decodeAll 5#64 ∧ Instr.denormal 0#1 5#52 ∈ decodeAll 5#64 ∧
    decodeRow .denormal 5#64 = some (.denormal 0#1 5#52) := by decide
theorem witness_OneClassRowSelectsEachOperand : RowName.normal ≠ .decompose := by decide
theorem witness_StatusCodes : (driven [full 5#64] .ofIdle []).outData = some (F 5#64).onPorts := by decide
theorem witness_NormalCompletes : 1 ≤ (1#11).toNat ∧ (1#11).toNat ≤ 2046 ∧ 1 ≤ (2046#11).toNat ∧ (2046#11).toNat ≤ 2046 := by
  decide
theorem witness_SignalingNaNCompletes : (1#51) ≠ 0#51 ∧ (0x7FFFFFFFFFFFF#51) ≠ 0#51 := by decide
theorem witness_ClassRowRefinesDecompose : (Instr.signalingNaN 1#1 1#51).wellFormed = true := by decide
theorem witness_OperationFrame : ∃ t, exec (.infinity 1#1) (driven [full 1#64, full 0#64] .ofIdle []) = .next t ∧
    0 + 1 < (driven [full 1#64, full 0#64] .ofIdle []).stages.length := ⟨_, rfl, by decide⟩
theorem witness_NoOperandRaises : (driven [full 0#64] .ofIdle []).stages ≠ [] ∧ (driven [] .ofIdle []).stages = [] := by decide
theorem witness_NormalReconstructs : (F 0xC000000000000000#64).status = .normal := by decide
theorem witness_DenormalReconstructsDoubled : (F 0x8000000000000000#64).status = .denormal ∧
    (F 0x8000000000000001#64).status = .denormal ∧ fracField 0x8000000000000001#64 ≠ 0#52 := by decide
theorem witness_MantissaSign : (F 0xFFEFFFFFFFFFFFFF#64).status = .normal ∧ (F 1#64).status = .denormal ∧
    fracField 1#64 ≠ 0#52 := by decide
theorem witness_StepRunsDecodedOperand : ∃ u,
    (driven [full 0#64] (.ofOperand 3#64) [.data]).schedule = [{ inputs := .ofOperand 3#64, reads := [.data] }] ∧
    State.readPorts { driven [full 0#64] (.ofOperand 3#64) [.data] with ports := .ofOperand 3#64, schedule := [] } [.data] =
      .next u := ⟨_, rfl, rfl⟩
/-- A cycle of each row of R45, on a state whose outputs can be read. -/
theorem witness_ControlInputsSelectAction (rst inValid : Bool) : ∃ u,
    (driven [full 0#64] ⟨rst, inValid, 3#64⟩ [.data]).schedule = [{ inputs := ⟨rst, inValid, 3#64⟩, reads := [.data] }] ∧
    State.readPorts { driven [full 0#64] ⟨rst, inValid, 3#64⟩ [.data] with ports := ⟨rst, inValid, 3#64⟩, schedule := [] }
      [.data] = .next u := ⟨_, rfl, rfl⟩
/-- Two stages, so that each clause has a stage to speak of, for each row of R45. -/
theorem witness_StagesUpdateTogether : ∀ rst inValid : Bool,
    (stateOf (step (driven [full 1#64, full 0#64] ⟨rst, inValid, 3#64⟩ [.outValid]))).isSome = true := by decide
theorem witness_OutputsAreLastStage : (driven [full 1#64, full 0#64] .ofIdle []).stages = [full 1#64] ++ [full 0#64] ∧
    (full 0#64).v = some true ∧ (driven [full 1#64, .bubble] .ofIdle []).stages = [full 1#64] ++ [.bubble] ∧
    Stage.bubble.v ≠ some true ∧ (driven [] .ofIdle []).stages = [] ∧
    (Inputs.ofOperand 3#64).inValid = true ∧ (Inputs.ofOperand 3#64).rst = false ∧
    ¬ (Inputs.ofIdle.inValid = true ∧ Inputs.ofIdle.rst = false) := by decide
theorem witness_UnusedInBitsHaveNoEffect : ¬ (true = false ∧ true = true) ∧ ¬ (false = false ∧ false = true) ∧
    (stateOf (step (driven [full 0#64] ⟨true, true, 3#64⟩ [.data]))).isSome = true ∧
    (faultOf (step (driven [.bubble] ⟨false, false, 3#64⟩ [.data]))).isSome = true := by decide
theorem witness_EveryOperandIsAccepted : (driven [full 0#64] (.ofOperand 3#64) []).schedule =
    [{ inputs := .ofOperand 3#64, reads := [] }] ∧ (driven [full 0#64] (.ofOperand 3#64) []).stages ≠ [] ∧
    (driven [] (.ofOperand 3#64) []).schedule = [{ inputs := .ofOperand 3#64, reads := [] }] ∧
    (driven [] (.ofOperand 3#64) []).stages = [] := by decide
theorem witness_ReadsHaveNoSideEffect :
    (∃ t, step { driven [full 0#64] .ofIdle [] with schedule := [⟨.ofOperand 3#64, [.data, .outValid]⟩] } = .next t) ∧
    (∃ t, step { driven [full 0#64] .ofIdle [] with schedule := [⟨.ofOperand 3#64, []⟩] } = .next t) ∧
    (∃ t, (driven [full 0#64] .ofIdle []).readPort .data = .next t) ∧
    ∃ t, (driven [full 0#64] .ofIdle []).readPort .outValid = .next t := ⟨⟨_, rfl⟩, ⟨_, rfl⟩, ⟨_, rfl⟩, ⟨_, rfl⟩⟩
theorem witness_pipeline_sound : (driven [full 0#64, .bubble, .unwritten] (.ofOperand 3#64) [.data]).Inv := by
  intro st h
  simp only [driven, List.mem_cons, List.not_mem_nil, or_false] at h
  rcases h with rfl | rfl | rfl
  · exact .inl ⟨_, rfl⟩
  · exact .inr (.inl rfl)
  · exact .inr (.inr rfl)
theorem witness_FaultsAreReadsWithoutValue :
    (driven [full 0#64, .bubble, .unwritten] (.ofOperand 3#64) [.data]).Inv ∧
    (driven [full 0#64, .bubble, .unwritten] (.ofOperand 3#64) [.data]).schedule =
      [{ inputs := .ofOperand 3#64, reads := [.data] }] ∧
    State.outValid { driven [full 0#64, .bubble, .unwritten] (.ofOperand 3#64) [.data] with ports := .ofOperand 3#64 } ≠
      some true := ⟨witness_pipeline_sound, by decide, by decide⟩
/-- For each clause: the read stands first in one cycle and later in another, with stages and without. -/
theorem witness_ReadWithoutValueFaults : Read.data ∈ [Read.data] ∧ [Read.data].head? = some .data ∧
    Read.data ∈ [Read.outValid, .data] ∧
    State.outValid { driven [.bubble] .ofIdle [.data] with ports := .ofIdle } ≠ some true ∧
    State.outValid { driven [] .ofIdle [.outValid, .data] with ports := .ofIdle } ≠ some true ∧
    Read.outValid ∈ [Read.outValid] ∧ [Read.outValid].head? = some .outValid ∧
    State.outValid { driven [.unwritten] .ofIdle [.outValid] with ports := .ofIdle } = none := by decide
theorem witness_StoppedClockKeepsStages : State.schedule { driven [full 0#64] .ofIdle [] with schedule := [] } = [] := rfl
theorem witness_ResetEdgeInvalidatesStages : Inputs.rst ⟨true, true, 3#64⟩ = true ∧
    (driven [full 0#64] ⟨true, true, 3#64⟩ []).schedule = [{ inputs := ⟨true, true, 3#64⟩, reads := [] }] ∧
    (driven [full 0#64] ⟨true, true, 3#64⟩ []).stages ≠ [] ∧ (driven [] ⟨true, true, 3#64⟩ []).stages = [] := by decide

/-- A block of one stage at power-up whose host resets it, presents an operand and is idle. -/
def booted : State :=
  { State.powerUpWith 1 with
    schedule := [⟨.ofReset, []⟩, ⟨.ofOperand 1#64, []⟩, ⟨.ofIdle, [.outValid, .data]⟩] }

theorem witness_OneResetEdgeCompletesReset : [(⟨.ofReset, []⟩ : HostCycle)] ≠ [] ∧
    (∀ c ∈ [(⟨.ofReset, []⟩ : HostCycle)], c.inputs.rst = true ∧ c.reads = []) ∧
    booted.schedule = [⟨.ofReset, []⟩] ++ ⟨.ofOperand 1#64, []⟩ :: [⟨.ofIdle, [.outValid, .data]⟩] ∧
    booted.stages ≠ [] ∧ ({ booted with stages := [] } : State).stages = [] := by decide
theorem witness_ResetDiscardsResultsInFlight : ∃ t,
    booted.schedule = ⟨.ofReset, []⟩ :: ([] ++ [⟨.ofOperand 1#64, []⟩, ⟨.ofIdle, [.outValid, .data]⟩]) ∧
    Inputs.ofReset.rst = true ∧ ([] : List HostCycle).length < booted.stages.length ∧
    run (([] : List HostCycle).length + 1) booted = .next t := ⟨_, rfl, rfl, by decide, rfl⟩
/-- Of two stages, after one cycle, the first has a value and the second has none; after a reset edge both have. -/
theorem witness_PowerUpValuesAppear : (∃ t, 1 ≤ 2 ∧
    run 1 { State.powerUpWith 2 with schedule := [⟨.ofIdle, []⟩] } = .next t ∧ t.outValid = none) ∧
    ∃ t, run 1 { State.powerUpWith 2 with schedule := [⟨.ofReset, []⟩] } = .next t ∧ t.outValid = some false :=
  ⟨⟨_, by decide, rfl, rfl⟩, _, rfl, rfl⟩

/-- A reset block of one stage whose host presents an operand and takes the result in the next cycle. -/
def served : State :=
  { State.resetWith 1 with schedule := [⟨.ofOperand 1#64, []⟩, ⟨.ofReset, [.outValid, .data]⟩] }

theorem witness_HostTakesResultAfterPipeStages :
    served.schedule = ⟨.ofOperand 1#64, []⟩ :: ([] ++ ⟨.ofReset, [.outValid, .data]⟩ :: []) ∧
    ([] : List HostCycle).length + 1 = served.stages.length ∧ (driven [] (.ofOperand 1#64) [.outValid, .data]).stages = [] := by
  decide
theorem witness_ResultsLeaveInOrder : ∃ t, served.schedule = [⟨.ofOperand 1#64, []⟩] ++ [⟨.ofReset, [.outValid, .data]⟩] ∧
    (∀ d ∈ [(⟨.ofOperand 1#64, []⟩ : HostCycle)], d.inputs.rst = false) ∧ 1 ≤ served.stages.length ∧
    served.stages.length ≤ 1 ∧ [(⟨.ofOperand 1#64, []⟩ : HostCycle)][1 - served.stages.length]? = some ⟨.ofOperand 1#64, []⟩ ∧
    run 1 served = .next t := ⟨_, rfl, by decide, by decide, by decide, rfl, rfl⟩
theorem witness_PipelineHoldsLatestCycles : ∃ t, served.schedule = [⟨.ofOperand 1#64, []⟩] ++ [⟨.ofReset, [.outValid, .data]⟩] ∧
    run 1 served = .next t := ⟨_, rfl, rfl⟩
theorem witness_PipelineForgetsOlderState : ∃ t t',
    served.stages.length = (driven [full 9#64] (.ofOperand 1#64) []).stages.length ∧
    (driven [full 9#64] (.ofOperand 1#64) []).schedule = [⟨.ofOperand 1#64, []⟩] ++ [] ∧ served.stages.length ≤ 1 ∧
    run 1 served = .next t ∧ run 1 (driven [full 9#64] (.ofOperand 1#64) []) = .next t' :=
  ⟨_, _, rfl, rfl, by decide, rfl, rfl⟩
theorem witness_StepKeepsPipelineSound : served.Inv ∧ ∃ t, step served = .next t :=
  ⟨fun _ h => .inr (.inl (List.eq_of_mem_replicate h)), _, rfl⟩
theorem witness_ValidOutputsAreOneResult : (driven [.bubble, full 0#64] .ofIdle []).Inv ∧
    (driven [.bubble, full 0#64] .ofIdle []).outValid = some true := by
  refine ⟨fun st h => ?_, by decide⟩
  simp only [driven, List.mem_cons, List.not_mem_nil, or_false] at h
  rcases h with rfl | rfl
  · exact .inr (.inl rfl)
  · exact .inl ⟨_, rfl⟩
theorem witness_StepFrame : ∃ t, step served = .next t := ⟨_, rfl⟩

end Sys2Proof.Tests
end

