-- ==== Sys2Proof/Proofs/StepFrame.lean ====
section
/-! SUPPORT. What a step leaves unchanged: the number of stages at an edge, the log entries of a cycle's reads, and from
them the frame of a step (R6, R21, R33). -/

namespace Sys2Proof.Machine

/-- What an edge can do, by the table of R45. -/
theorem edge_cases {s t : State} (h : edge s = .next t) :
    (s.ports.rst = true ∧ t = s.resetEdge) ∨
    (s.ports.rst = false ∧ s.ports.inValid = true ∧ exec (decode s.ports.inBits) s = .next t) ∨
    (s.ports.rst = false ∧ s.ports.inValid = false ∧ t = s.idleEdge) := by
  cases hr : s.ports.rst with
  | true => rw [edge_reset hr] at h; cases h; exact .inl ⟨rfl, rfl⟩
  | false =>
    cases hv : s.ports.inValid with
    | true => exact .inr (.inl ⟨rfl, rfl, (edge_operand hr hv).symm.trans h⟩)
    | false => rw [edge_idle hr hv] at h; cases h; exact .inr (.inr ⟨rfl, rfl, rfl⟩)

/-- An instruction keeps the number of stages, the schedule and the log. -/
theorem exec_frame {i : Instr} {s t : State} (h : exec i s = .next t) :
    t.stages.length = s.stages.length ∧ t.schedule = s.schedule ∧ t.log = s.log := by
  obtain ⟨r, hr⟩ := exec_accepts i s
  cases hr.symm.trans h
  simp [shiftIn_length]

/-- An edge keeps the number of stages, the schedule and the log. -/
theorem edge_frame {s t : State} (h : edge s = .next t) :
    t.stages.length = s.stages.length ∧ t.schedule = s.schedule ∧ t.log = s.log := by
  obtain ⟨-, rfl⟩ | ⟨-, -, hx⟩ | ⟨-, -, rfl⟩ := edge_cases h
  · simp
  · exact exec_frame hx
  · simp [shiftIn_length]

/-- A read adds one entry to the log. -/
theorem State.readPort_log {s t : State} {k : Read} (h : s.readPort k = .next t) : ∃ o, t.log = o :: s.log := by
  obtain ⟨v, -, -, rfl⟩ | ⟨d, -, -, rfl⟩ := State.readPort_cases h <;> exact ⟨_, rfl⟩

/-- Reads add one entry each to the log, before the earlier ones. -/
theorem State.readPorts_log {s t : State} {ks : List Read} (h : s.readPorts ks = .next t) :
    ∃ seen, t.log = seen ++ s.log ∧ seen.length = ks.length := by
  induction ks generalizing s with
  | nil => cases h; exact ⟨[], rfl, rfl⟩
  | cons k ks ih =>
    simp only [State.readPorts] at h
    split at h
    · next s' hs =>
      obtain ⟨o, ho⟩ := State.readPort_log hs
      obtain ⟨seen, hlog, hlen⟩ := ih h
      exact ⟨seen ++ [o], by simp [hlog, ho], by simp [hlen]⟩
    · cases h
    · cases h

/-- The part of a cycle before its edge adds to the log one entry for each of its reads. -/
theorem State.beforeEdge_log {s t : State} {c : HostCycle} {rest : List HostCycle} (h : s.beforeEdge c rest = .next t) :
    ∃ seen, t.log = seen ++ s.log ∧ seen.length = c.reads.length := by
  simpa using State.readPorts_log h

/-- Settles O51: a stopped clock changes nothing, and in a cycle the reads alone write the log and no edge changes the
number of stages. -/
theorem stepFrame : Obligations.StepFrame := by
  intro s t h
  obtain ⟨hs, rfl⟩ | ⟨c, rest, s', hs, hb, he⟩ := step_cases h
  · exact ⟨rfl, by simp [hs], [], rfl, by simp [hs]⟩
  · obtain ⟨hstages, -, hsched⟩ := State.beforeEdge_frame hb
    obtain ⟨seen, hlog, hlen⟩ := State.beforeEdge_log hb
    obtain ⟨hlength, hschedule, hlog'⟩ := edge_frame he
    exact ⟨by rw [hlength, hstages], by simp [hschedule, hsched, hs], seen, hlog'.trans hlog, by simp [hlen, hs]⟩

end Sys2Proof.Machine
end

section
/-! SUPPORT. The decoded instruction of an operand is well-formed, encodes back to it, and has `F` of it as its result
(R50, R57, R86 to R92). -/

namespace Sys2Proof

/-- The class row of an operand selects it: the Normal row takes what the other four leave (R52, R57). -/
theorem classRow_selects (b : Word) : (classRow b).selects b = true := by
  unfold classRow
  split_ifs with hinf hquiet hsig hden
  · exact hinf
  · exact hquiet
  · exact hsig
  · exact hden
  · rw [selects_infinity] at hinf
    rw [selects_quietNaN] at hquiet
    rw [selects_signalingNaN] at hsig
    rw [selects_denormal] at hden
    rw [selects_normal]
    tauto

/-- A fraction is its top bit and the payload below it. -/
theorem topBit_append_payload {b : Word} {p : BitVec 1} (h : (fracField b).extractLsb' 51 1 = 1#1 ↔ p = 1#1) :
    (p ++ payloadField b : BitVec 52) = fracField b := by
  apply BitVec.eq_of_toNat_eq
  have hp : p = 1#1 ↔ p.toNat = 1 := by rw [← BitVec.toNat_inj]; rfl
  rw [frac_top_eq_one, toNat_fracField, hp] at h
  rw [toNat_topBitAppend, toNat_payloadField, toNat_fracField]
  omega

/-- What a row reads from a pattern it selects encodes to that pattern. -/
theorem encode_operands {r : RowName} {b : Word} (h : r.selects b = true) : encode (r.operands b) = b := by
  cases r with
  | decompose => rfl
  | infinity =>
    obtain ⟨he, hf⟩ := (selects_infinity b).mp h
    apply fields_ext <;> simp [RowName.operands, encode, he, hf]
  | quietNaN =>
    obtain ⟨he, htop⟩ := (selects_quietNaN b).mp h
    have hf := topBit_append_payload (b := b) (p := 1#1) (by simp [htop])
    apply fields_ext <;> simp only [RowName.operands, encode, hf, signField_joinFields, bexpField_joinFields,
      fracField_joinFields, he]
  | signalingNaN =>
    obtain ⟨he, htop, -⟩ := (selects_signalingNaN b).mp h
    have hf := topBit_append_payload (b := b) (p := 0#1) (by simp [htop])
    apply fields_ext <;> simp only [RowName.operands, encode, hf, signField_joinFields, bexpField_joinFields,
      fracField_joinFields, he]
  | denormal =>
    have he := (selects_denormal b).mp h
    apply fields_ext <;> simp [RowName.operands, encode, he]
  | normal => apply fields_ext <;> simp [RowName.operands, encode]

/-- What a row reads from a pattern it selects is well-formed. -/
theorem operands_wellFormed {r : RowName} {b : Word} (h : r.selects b = true) : (r.operands b).wellFormed = true := by
  cases r with
  | signalingNaN =>
    obtain ⟨-, htop, hf⟩ := (selects_signalingNaN b).mp h
    rw [ne_eq, frac_top_eq_one, toNat_fracField] at htop
    rw [ne_eq, ← BitVec.toNat_inj, toNat_fracField, BitVec.toNat_ofNat] at hf
    simp only [RowName.operands, Instr.wellFormed, ne_eq, ← BitVec.toNat_inj, toNat_payloadField, BitVec.toNat_ofNat,
      decide_eq_true_eq]
    omega
  | normal =>
    rw [RowName.selects, Bool.and_eq_true] at h
    exact h.2
  | decompose => rfl
  | infinity => rfl
  | quietNaN => rfl
  | denormal => rfl

theorem encode_decode (b : Word) : encode (decode b) = b := encode_operands (classRow_selects b)

theorem decode_wellFormed (b : Word) : (decode b).wellFormed = true := operands_wellFormed (classRow_selects b)

end Sys2Proof

namespace Sys2Proof.Machine

/-- A well-formed instruction takes in its operand with `F` of it as the result, whatever its row
(R86 to R92). -/
theorem exec_wellFormed {i : Instr} (h : i.wellFormed = true) (s : State) :
    exec i s = .next (s.accept (encode i) (F (encode i))) := by
  cases i with
  | decompose b => rfl
  | infinity sign => simp [exec, execInfinity, F_eq, encode, classify, magnitude, uint]
  | quietNaN sign payload =>
    have htop : (1#1 ++ payload : BitVec 52).extractLsb' 51 1 = 1#1 := by
      rw [frac_top_eq_one, toNat_topBitAppend]; simp
    have hne : (1#1 ++ payload : BitVec 52) ≠ 0#52 := fun h0 => by rw [h0] at htop; simp at htop
    simp [exec, execQuietNaN, F_eq, encode, classify, magnitude, uint, htop, hne, toNat_topBitAppend]
  | signalingNaN sign payload =>
    have hp := payload.isLt
    have h0 : payload.toNat ≠ 0 := by simpa [Instr.wellFormed, ← BitVec.toNat_inj] using h
    have htop : (0#1 ++ payload : BitVec 52).extractLsb' 51 1 ≠ 1#1 := by
      rw [ne_eq, frac_top_eq_one, toNat_topBitAppend, BitVec.toNat_ofNat]; omega
    have hne : (0#1 ++ payload : BitVec 52) ≠ 0#52 := by
      rw [ne_eq, ← BitVec.toNat_inj, toNat_topBitAppend]; simpa using h0
    simp [exec, execSignalingNaN, F_eq, encode, classify, magnitude, uint, htop, hne, toNat_topBitAppend]
  | denormal sign frac => simp [exec, execDenormal, F_eq, encode, classify, magnitude, uint]
  | normal sign bexp frac =>
    simp only [Instr.wellFormed, Bool.and_eq_true, decide_eq_true_eq] at h
    have hmax : bexp ≠ 0x7FF#11 := by rw [ne_eq, ← BitVec.toNat_inj, BitVec.toNat_ofNat]; omega
    have hmin : bexp ≠ 0x000#11 := by rw [ne_eq, ← BitVec.toNat_inj, BitVec.toNat_ofNat]; omega
    simp [exec, execNormal, F_eq, encode, classify, magnitude, hmax, hmin, add_comm]

/-- The decoded instruction of an operand takes it in with `F` of it as the result (R87). -/
theorem exec_decode (b : Word) (s : State) : exec (decode b) s = .next (s.accept b (F b)) := by
  rw [exec_wellFormed (decode_wellFormed b), encode_decode]

end Sys2Proof.Machine
end

section
/-! SUPPORT. What a cycle and a run of cycles do to the stages, as functions of the cycles' inputs and the stages alone
(R23). -/

namespace Sys2Proof.Machine

/-- The stages after the edge of a cycle (R23); `edge_stages` and `step_stages` tie it to the model. -/
def HostCycle.nextStages (c : HostCycle) (l : List Stage) : List Stage :=
  if c.inputs.rst then List.replicate l.length .invalid else shiftIn c.entering l

/-- The stages after the edges of a list of cycles, the first cycle first; `run_stages` ties it to the model. -/
def stagesAfterCycles (cs : List HostCycle) (l : List Stage) : List Stage :=
  cs.foldl (fun l c => c.nextStages l) l

theorem HostCycle.nextStages_reset {c : HostCycle} (h : c.inputs.rst = true) (l : List Stage) :
    c.nextStages l = List.replicate l.length .invalid := by
  simp [HostCycle.nextStages, h]

theorem HostCycle.nextStages_shift {c : HostCycle} (h : c.inputs.rst = false) (l : List Stage) :
    c.nextStages l = shiftIn c.entering l := by
  simp [HostCycle.nextStages, h]

@[simp] theorem HostCycle.length_nextStages (c : HostCycle) (l : List Stage) : (c.nextStages l).length = l.length := by
  cases h : c.inputs.rst
  · rw [HostCycle.nextStages_shift h, shiftIn_length]
  · rw [HostCycle.nextStages_reset h, List.length_replicate]

theorem HostCycle.entering_operand {c : HostCycle} (h : c.inputs.inValid = true) :
    c.entering = .holding (F c.inputs.inBits) := by
  simp [HostCycle.entering, h]

theorem HostCycle.entering_idle {c : HostCycle} (h : c.inputs.inValid = false) : c.entering = .bubble := by
  simp [HostCycle.entering, h]

@[simp] theorem stagesAfterCycles_nil (l : List Stage) : stagesAfterCycles [] l = l := rfl
@[simp] theorem stagesAfterCycles_cons (c : HostCycle) (cs : List HostCycle) (l : List Stage) :
    stagesAfterCycles (c :: cs) l = stagesAfterCycles cs (c.nextStages l) := rfl

@[simp] theorem length_stagesAfterCycles (cs : List HostCycle) (l : List Stage) :
    (stagesAfterCycles cs l).length = l.length := by
  induction cs generalizing l with
  | nil => rfl
  | cons c cs ih => simp [ih]

/-- The edge of the cycle whose inputs stand on the ports moves the stages on (R23, R45). -/
theorem edge_stages {s t : State} {c : HostCycle} (hp : s.ports = c.inputs) (h : edge s = .next t) :
    t.stages = c.nextStages s.stages := by
  obtain ⟨hr, rfl⟩ | ⟨hr, hv, hx⟩ | ⟨hr, hv, rfl⟩ := edge_cases h <;> rw [hp] at hr
  · rw [HostCycle.nextStages_reset hr, State.resetEdge_stages, List.map_const']
  · rw [hp] at hv
    rw [exec_decode, hp] at hx
    cases hx
    rw [HostCycle.nextStages_shift hr, HostCycle.entering_operand hv, State.accept_stages]
  · rw [hp] at hv
    rw [HostCycle.nextStages_shift hr, HostCycle.entering_idle hv, State.idleEdge_stages]

/-- A cycle that answers has moved the stages on and is off the schedule. -/
theorem step_stages {s t : State} {c : HostCycle} {rest : List HostCycle} (hs : s.schedule = c :: rest)
    (h : step s = .next t) : t.stages = c.nextStages s.stages ∧ t.schedule = rest := by
  obtain ⟨h0, -⟩ | ⟨c', rest', u, hs', hb, he⟩ := step_cases h
  · simp [h0] at hs
  · obtain ⟨rfl, rfl⟩ : c = c' ∧ rest = rest' := by simpa [hs] using hs'
    obtain ⟨hstages, hports, hsched⟩ := State.beforeEdge_frame hb
    exact ⟨by rw [edge_stages hports he, hstages], (edge_frame he).2.1.trans hsched⟩

/-- A run of the next cycles that answers has moved the stages on by those cycles and taken them off the schedule. -/
theorem run_stages {s t : State} {cs rest : List HostCycle} (hs : s.schedule = cs ++ rest)
    (h : run cs.length s = .next t) : t.stages = stagesAfterCycles cs s.stages ∧ t.schedule = rest := by
  induction cs generalizing s with
  | nil => cases h; exact ⟨rfl, hs⟩
  | cons c cs ih =>
    obtain ⟨u, hstep, hrun⟩ := run_succ_cases h
    obtain ⟨hstages, hsched⟩ := step_stages hs hstep
    simpa [hstages] using ih hsched hrun

/-- A cycle without reads answers, and the host has read nothing (R19). -/
theorem step_quiet {s : State} {c : HostCycle} {rest : List HostCycle} (hs : s.schedule = c :: rest)
    (hq : c.reads = []) : ∃ t, step s = .next t ∧ t.log = s.log := by
  obtain ⟨t, ht⟩ := edge_answers { s with ports := c.inputs, schedule := rest }
  exact ⟨t, (step_of_beforeEdge hs (s.beforeEdge_quiet rest hq)).trans ht, (edge_frame ht).2.2⟩

/-- Cycles without reads run through, and the host has read nothing. -/
theorem run_quiet {s : State} {cs rest : List HostCycle} (hs : s.schedule = cs ++ rest) (hq : ∀ c ∈ cs, c.reads = []) :
    ∃ t, run cs.length s = .next t ∧ t.log = s.log := by
  induction cs generalizing s with
  | nil => exact ⟨s, rfl, rfl⟩
  | cons c cs ih =>
    obtain ⟨hc, hcs⟩ := List.forall_mem_cons.mp hq
    obtain ⟨u, hu, hlog⟩ := step_quiet hs hc
    obtain ⟨t, ht, hlog'⟩ := ih (step_stages hs hu).2 hcs
    exact ⟨t, (run_succ _ hu).trans ht, hlog'.trans hlog⟩

end Sys2Proof.Machine
end

section
/-! SUPPORT. What the pipeline holds after many cycles (R21, R23, R24, R26, R31). -/

namespace Sys2Proof.Machine

/-- Cycles without reset put their entries before the earlier stages, the latest first, as far as there are stages. -/
theorem stagesAfterCycles_of_no_reset {cs : List HostCycle} (h : ∀ c ∈ cs, c.inputs.rst = false) (l : List Stage) :
    stagesAfterCycles cs l = ((cs.reverse.map HostCycle.entering) ++ l).take l.length := by
  induction cs generalizing l with
  | nil => simp
  | cons c cs ih =>
    obtain ⟨hc, hcs⟩ := List.forall_mem_cons.mp h
    rw [stagesAfterCycles_cons, ih hcs, HostCycle.nextStages_shift hc, shiftIn_length, shiftIn_eq_take]
    simp [List.take_append, List.take_take]

/-- Settles O46: a run moves the stages on by its cycles, and without reset each of them enters before the earlier ones. -/
theorem pipelineHoldsLatestCycles : Obligations.PipelineHoldsLatestCycles := by
  intro s t cs rest hs hr h
  rw [(run_stages hs h).1, stagesAfterCycles_of_no_reset hr]

/-- If two pipelines agree in their first `n` stages, they agree in one more after a shared cycle. -/
theorem HostCycle.take_nextStages_congr (c : HostCycle) {l l' : List Stage} {n : Nat} (hlen : l.length = l'.length)
    (h : l.take n = l'.take n) : (c.nextStages l).take (n + 1) = (c.nextStages l').take (n + 1) := by
  cases hr : c.inputs.rst
  · rw [HostCycle.nextStages_shift hr, HostCycle.nextStages_shift hr, shiftIn_eq_take, shiftIn_eq_take, hlen,
      List.take_take, List.take_take, min_comm, ← List.take_take, ← List.take_take, List.take_succ_cons,
      List.take_succ_cons, h]
  · rw [HostCycle.nextStages_reset hr, HostCycle.nextStages_reset hr, hlen]

/-- If two pipelines agree in their first `n` stages, shared cycles add one such stage each. -/
theorem take_stagesAfterCycles_congr (cs : List HostCycle) {l l' : List Stage} {n : Nat} (hlen : l.length = l'.length)
    (h : l.take n = l'.take n) :
    (stagesAfterCycles cs l).take (n + cs.length) = (stagesAfterCycles cs l').take (n + cs.length) := by
  induction cs generalizing l l' n with
  | nil => exact h
  | cons c cs ih =>
    have := ih (by simpa using hlen) (c.take_nextStages_congr hlen h)
    rwa [Nat.add_right_comm] at this

/-- Settles O47: each shared cycle makes one further stage equal, so as many cycles as stages make all of them equal. -/
theorem pipelineForgetsOlderState : Obligations.PipelineForgetsOlderState := by
  intro s s' t t' cs rest rest' hlen hs hs' hcs h h'
  have hagree := take_stagesAfterCycles_congr cs hlen (n := 0) rfl
  rw [(run_stages hs h).1, (run_stages hs' h').1]
  rwa [List.take_of_length_le (by simpa using hcs), List.take_of_length_le (by simpa [← hlen] using hcs)] at hagree

theorem Stage.sound_invalid : Stage.invalid.Sound := .inr (.inl rfl)

/-- What a cycle takes into the first stage is sound (R23). -/
theorem HostCycle.entering_sound (c : HostCycle) : c.entering.Sound := by
  cases h : c.inputs.inValid
  · exact .inr (.inl (HostCycle.entering_idle h))
  · exact .inl ⟨_, HostCycle.entering_operand h⟩

/-- After a cycle a stage is invalid, what the cycle entered, or one from before. -/
theorem HostCycle.mem_nextStages {c : HostCycle} {st : Stage} {l : List Stage} (h : st ∈ c.nextStages l) :
    st = .invalid ∨ st = c.entering ∨ st ∈ l := by
  cases hr : c.inputs.rst
  · rw [HostCycle.nextStages_shift hr] at h
    exact .inr (mem_shiftIn h)
  · rw [HostCycle.nextStages_reset hr] at h
    exact .inl (List.eq_of_mem_replicate h)

/-- Settles O48: whatever a cycle puts into a stage, a reset, the cycle's own entry or an earlier stage, is sound. -/
theorem stepKeepsPipelineSound : Obligations.StepKeepsPipelineSound := by
  intro s t hinv h
  cases hs : s.schedule with
  | nil =>
    rw [step_stopped hs] at h
    cases h
    exact hinv
  | cons c rest =>
    intro st hst
    rw [(step_stages hs h).1] at hst
    obtain rfl | rfl | hold := HostCycle.mem_nextStages hst
    · exact Stage.sound_invalid
    · exact c.entering_sound
    · exact hinv st hold

/-- Settles O49: a block after reset holds bubbles, and at power-up nothing yet. -/
theorem pipelineSoundAtStart : Obligations.PipelineSoundAtStart := by
  have hreset (p : Nat) : (State.resetWith p).Inv := fun st h => by
    rw [List.eq_of_mem_replicate h]
    exact Stage.sound_invalid
  exact ⟨hreset _, fun p => ⟨hreset p, fun st h => .inr (.inr (List.eq_of_mem_replicate h))⟩⟩

/-- After a cycle a stage behind the first `n + 1` is invalid or was behind the first `n` before. -/
theorem HostCycle.mem_drop_nextStages {c : HostCycle} {st : Stage} {l : List Stage} {n : Nat}
    (h : st ∈ (c.nextStages l).drop (n + 1)) : st = .invalid ∨ st ∈ l.drop n := by
  cases hr : c.inputs.rst
  · rw [HostCycle.nextStages_shift hr, shiftIn_eq_take, List.drop_take, List.drop_succ_cons] at h
    exact .inr (List.mem_of_mem_take h)
  · rw [HostCycle.nextStages_reset hr] at h
    exact .inl (List.eq_of_mem_replicate (List.mem_of_mem_drop h))

/-- If all stages behind the first `n` are invalid, then after some cycles all those further on by as many are. -/
theorem invalid_of_mem_drop_stagesAfterCycles {cs : List HostCycle} {l : List Stage} {n : Nat}
    (h : ∀ st ∈ l.drop n, st = .invalid) :
    ∀ st ∈ (stagesAfterCycles cs l).drop (n + cs.length), st = .invalid := by
  induction cs generalizing l n with
  | nil => exact h
  | cons c cs ih =>
    have := ih (l := c.nextStages l) (n := n + 1) fun st hst => (HostCycle.mem_drop_nextStages hst).elim id (h st)
    rwa [Nat.add_right_comm] at this

/-- With an invalid last stage `out_valid` is 0 and the data outputs have no value (R17, R25). -/
theorem State.outputs_of_last_invalid {s : State} (h : s.stages.getLast? = some .invalid) :
    s.outValid = some false ∧ s.outData = none := by
  have hv : s.outValid = some false := State.outValid_of_last h
  exact ⟨hv, State.outData_of_not_valid (by simp [hv])⟩

/-- Settles O42: the edge leaves every stage invalid, and each later cycle can fill one stage more, so the last stage is
still invalid after fewer cycles than stages. -/
theorem resetDiscardsResultsInFlight : Obligations.ResetDiscardsResultsInFlight := by
  intro s t c cs rest hs hr hcs h
  obtain ⟨u, hstep, hrun⟩ := run_succ_cases h
  obtain ⟨hu, hsched⟩ := step_stages hs hstep
  have ht := (run_stages hsched hrun).1
  rw [hu, HostCycle.nextStages_reset hr] at ht
  have hinvalid := invalid_of_mem_drop_stagesAfterCycles (cs := cs) (l := List.replicate s.stages.length .invalid)
    (n := 0) fun st hst => List.eq_of_mem_replicate hst
  rw [Nat.zero_add, ← ht] at hinvalid
  have hlen : cs.length < t.stages.length := by simpa [ht] using hcs
  obtain ⟨st, hlast⟩ : ∃ st, (t.stages.drop cs.length).getLast? = some st :=
    ⟨_, List.getLast?_eq_some_getLast (by simpa using hlen)⟩
  have hst := hinvalid st (List.mem_of_getLast? hlast)
  rw [List.getLast?_drop, if_neg (by omega), hst] at hlast
  exact State.outputs_of_last_invalid hlast

end Sys2Proof.Machine
end

section
/-! SUPPORT. The output ports: what they show of the stages and the inputs, and what they do not depend on (R16, R25). -/

namespace Sys2Proof.Machine

/-- With the result of an operand in the last stage it is on the outputs, whatever stands on the inputs (R25). -/
theorem State.outputs_of_last_holding {s : State} {r : Result} (h : s.stages.getLast? = some (.holding r)) :
    s.outValid = some true ∧ s.outData = some r.onPorts :=
  ⟨State.outValid_of_last h, State.outData_of_last h rfl⟩

/-- Without stages the result of an operand on the ports is on the outputs (R25). -/
theorem State.outputs_of_operand {s : State} {b : Word} (h : s.stages = []) (hp : s.ports = .ofOperand b) :
    s.outValid = some true ∧ s.outData = some (F b).onPorts := by
  have hv : s.outValid = some true := by rw [State.outValid_of_no_stage h, hp]; rfl
  exact ⟨hv, by rw [State.outData_of_no_stage h hv, hp]; rfl⟩

/-- Outside a presented operand the outputs do not depend on `in_bits` (R16). -/
theorem State.outputs_ignore_inBits {s t : State} (hs : s.stages = t.stages) (hr : s.ports.rst = t.ports.rst)
    (hv : s.ports.inValid = t.ports.inValid) (h : ¬ (t.ports.rst = false ∧ t.ports.inValid = true)) :
    s.outValid = t.outValid ∧ s.outData = t.outData := by
  cases hlast : t.stages.getLast? with
  | some st =>
    have hlast' : s.stages.getLast? = some st := by rw [hs, hlast]
    simp [State.outData, State.outResult, State.outValid_of_last hlast, State.outValid_of_last hlast', hlast, hlast']
  | none =>
    have hnil : t.stages = [] := List.getLast?_eq_none_iff.mp hlast
    have hvalid : t.outValid = some false := by
      rw [State.outValid_of_no_stage hnil]
      revert h
      cases t.ports.rst <;> cases t.ports.inValid <;> simp
    have heq : s.outValid = t.outValid := by
      rw [State.outValid_of_no_stage hnil, State.outValid_of_no_stage (hs.trans hnil), hr, hv]
    exact ⟨heq, by
      rw [State.outData_of_not_valid (s := s) (by simp [heq, hvalid]), State.outData_of_not_valid (by simp [hvalid])]⟩

/-- In a sound pipeline a valid output is the result of an operand (R70). -/
theorem State.Inv.outData_of_valid {s : State} (h : s.Inv) (hv : s.outValid = some true) :
    ∃ b, s.outData = some (F b).onPorts := by
  cases hlast : s.stages.getLast? with
  | none => exact ⟨_, State.outData_of_no_stage (List.getLast?_eq_none_iff.mp hlast) hv⟩
  | some st =>
    obtain ⟨b, rfl⟩ | rfl | rfl := h st (List.mem_of_getLast? hlast)
    · exact ⟨b, (State.outputs_of_last_holding hlast).2⟩
    · rw [State.outValid_of_last hlast] at hv; cases hv
    · rw [State.outValid_of_last hlast] at hv; cases hv

end Sys2Proof.Machine
end

section
/-! SUPPORT. The reads of a cycle as functions of the outputs: a cycle faults at its first read of an output without a value,
and otherwise logs what the outputs hold and goes on to its edge (R17, R33, R112). -/

namespace Sys2Proof.Machine

/-- What a read gets from the outputs, and nothing where they have no value; `readPort_of_observe` and
`readPort_of_not_observe` tie it to the model. -/
def State.observe (s : State) : Read → Option Observation
  | .outValid => s.outValid.map .outValid
  | .data => s.outData.map .data

/-- The fault of a read without a value. -/
def Read.fault : Read → Fault
  | .outValid => .outValidWithoutValue
  | .data => .dataWithoutValue

/-- The first of some reads whose output has no value. -/
def State.firstUnreadable (s : State) (ks : List Read) : Option Read := ks.find? fun k => (s.observe k).isNone

theorem State.readPort_of_observe {s : State} {k : Read} {o : Observation} (h : s.observe k = some o) :
    s.readPort k = .next { s with log := o :: s.log } := by
  cases k with
  | outValid =>
    obtain ⟨v, hv, rfl⟩ := Option.map_eq_some_iff.mp h
    simp [State.readPort, hv]
  | data =>
    obtain ⟨d, hd, rfl⟩ := Option.map_eq_some_iff.mp h
    simp [State.readPort, hd]

theorem State.readPort_of_not_observe {s : State} {k : Read} (h : s.observe k = none) :
    s.readPort k = .fault k.fault := by
  cases k with
  | outValid => simp [State.readPort, Option.map_eq_none_iff.mp h, Read.fault]
  | data => simp [State.readPort, Option.map_eq_none_iff.mp h, Read.fault]

/-- What a read gets depends on the outputs alone. -/
theorem State.observe_congr {s t : State} (hv : s.outValid = t.outValid) (hd : s.outData = t.outData) :
    s.observe = t.observe := by
  funext k
  cases k with
  | outValid => simp [State.observe, hv]
  | data => simp [State.observe, hd]

/-- The stages and the ports decide what a read gets. -/
theorem State.observe_congr_block {s t : State} (hs : s.stages = t.stages) (hp : s.ports = t.ports) :
    s.observe = t.observe :=
  State.observe_congr (State.outValid_congr hs hp) (State.outData_congr hs hp)

theorem State.observe_driven (s : State) (i : Inputs) (rest : List HostCycle) :
    State.observe { s with ports := i, schedule := rest } = State.observe { s with ports := i } :=
  State.observe_congr_block rfl rfl

theorem State.observe_logged (s : State) (o : Observation) :
    State.observe { s with log := o :: s.log } = s.observe :=
  State.observe_congr_block rfl rfl

theorem State.firstUnreadable_eq_none {s : State} {ks : List Read} :
    s.firstUnreadable ks = none ↔ ∀ k ∈ ks, s.observe k ≠ none := by
  simp [State.firstUnreadable]

/-- Reads of outputs that all have values log what those outputs hold. -/
theorem State.readPorts_of_readable {s : State} {ks : List Read} (h : s.firstUnreadable ks = none) :
    s.readPorts ks = .next { s with log := (ks.filterMap s.observe).reverse ++ s.log } := by
  rw [State.firstUnreadable_eq_none] at h
  induction ks generalizing s with
  | nil => rfl
  | cons k ks ih =>
    obtain ⟨hk, hks⟩ := List.forall_mem_cons.mp h
    obtain ⟨o, ho⟩ := Option.ne_none_iff_exists'.mp hk
    simp only [State.readPorts, State.readPort_of_observe ho]
    rw [ih (by rwa [s.observe_logged o])]
    simp [s.observe_logged o, ho]

/-- Reads fault at the first of them whose output has no value. -/
theorem State.readPorts_of_unreadable {s : State} {ks : List Read} {k : Read} (h : s.firstUnreadable ks = some k) :
    s.readPorts ks = .fault k.fault := by
  induction ks generalizing s with
  | nil => cases h
  | cons k' ks ih =>
    cases ho : s.observe k' with
    | none =>
      obtain rfl : k' = k := by simpa [State.firstUnreadable, ho] using h
      simp [State.readPorts, State.readPort_of_not_observe ho]
    | some o =>
      have hks : s.firstUnreadable ks = some k := by simpa [State.firstUnreadable, ho] using h
      simp only [State.readPorts, State.readPort_of_observe ho]
      exact ih (by rwa [State.firstUnreadable, s.observe_logged o])

section
variable {s : State} {c : HostCycle} {rest : List HostCycle} (hs : s.schedule = c :: rest)
include hs

/-- A cycle whose reads all have values goes on to its edge. -/
theorem step_of_readable (h : State.firstUnreadable { s with ports := c.inputs } c.reads = none) :
    step s = edge
      { s with
        ports := c.inputs, schedule := rest
        log := (c.reads.filterMap (State.observe { s with ports := c.inputs })).reverse ++ s.log } := by
  rw [State.firstUnreadable, ← s.observe_driven c.inputs rest] at h
  rw [← s.observe_driven c.inputs rest]
  exact step_of_beforeEdge hs (State.readPorts_of_readable h)

/-- A cycle faults at its first read without a value. -/
theorem step_of_unreadable {k : Read} (h : State.firstUnreadable { s with ports := c.inputs } c.reads = some k) :
    step s = .fault k.fault := by
  rw [State.firstUnreadable, ← s.observe_driven c.inputs rest] at h
  have hb : s.beforeEdge c rest = .fault k.fault := State.readPorts_of_unreadable h
  simp [step, oneCycle, hs, hb]

/-- A cycle whose reads all have values answers, with what the outputs hold in the log. -/
theorem step_logs_reads (h : State.firstUnreadable { s with ports := c.inputs } c.reads = none) :
    ∃ t, step s = .next t ∧ t.log = (c.reads.filterMap (State.observe { s with ports := c.inputs })).reverse ++ s.log := by
  obtain ⟨t, ht⟩ := edge_answers
    { s with
      ports := c.inputs, schedule := rest
      log := (c.reads.filterMap (State.observe { s with ports := c.inputs })).reverse ++ s.log }
  exact ⟨t, (step_of_readable hs h).trans ht, (edge_frame ht).2.2⟩

/-- In any state a cycle faults exactly when one of its reads has no value. -/
theorem step_faults_iff :
    (∃ f, step s = .fault f) ↔ ∃ k ∈ c.reads, State.observe { s with ports := c.inputs } k = none := by
  cases h : State.firstUnreadable { s with ports := c.inputs } c.reads with
  | none =>
    obtain ⟨t, ht, -⟩ := step_logs_reads hs h
    have hvalues := State.firstUnreadable_eq_none.mp h
    exact iff_of_false (by simp [ht]) fun ⟨k, hk, hnone⟩ => hvalues k hk hnone
  | some k =>
    have hnone : State.observe { s with ports := c.inputs } k = none := by
      simpa using List.find?_some h
    exact iff_of_true ⟨_, step_of_unreadable hs h⟩ ⟨k, List.mem_of_find?_eq_some h, hnone⟩

/-- A cycle whose first read has no value faults by that read's name. -/
theorem step_faults_at_head {k : Read} (hk : c.reads.head? = some k)
    (h : State.observe { s with ports := c.inputs } k = none) : step s = .fault k.fault := by
  obtain ⟨ks, hks⟩ := List.head?_eq_some_iff.mp hk
  exact step_of_unreadable hs (by simp [State.firstUnreadable, hks, h])

/-- A host that reads `out_valid` and the data while they show a result gets 1 and that result. -/
theorem step_takes_result {d : OutPorts} (hc : c.reads = [.outValid, .data])
    (hout : State.outValid { s with ports := c.inputs } = some true ∧
      State.outData { s with ports := c.inputs } = some d) :
    ∃ t, step s = .next t ∧ t.log = .data d :: .outValid true :: s.log := by
  obtain ⟨hv, hd⟩ := hout
  have hread : State.firstUnreadable { s with ports := c.inputs } c.reads = none := by
    simp [State.firstUnreadable, State.observe, hc, hv, hd]
  obtain ⟨t, ht, hlog⟩ := step_logs_reads hs hread
  exact ⟨t, ht, by simpa [State.observe, hc, hv, hd] using hlog⟩

end

/-- A step refuses nothing. -/
theorem step_not_refused (s : State) (r : Refusal) : step s ≠ .refused r := by
  cases hs : s.schedule with
  | nil => simp [step_stopped hs]
  | cons c rest =>
    cases h : State.firstUnreadable { s with ports := c.inputs } c.reads with
    | none => obtain ⟨t, ht, -⟩ := step_logs_reads hs h; simp [ht]
    | some k => simp [step_of_unreadable hs h]

/-- In a sound pipeline a read gets nothing exactly when its output has no value (R17, R112). -/
theorem State.Inv.observe_eq_none {s : State} (h : s.Inv) (k : Read) : s.observe k = none ↔ ¬ s.hasValue k := by
  cases k with
  | outValid => simp [State.observe, State.hasValue]
  | data =>
    by_cases hv : s.outValid = some true
    · obtain ⟨b, hb⟩ := h.outData_of_valid hv
      simp [State.observe, State.hasValue, hv, hb]
    · simp [State.observe, State.hasValue, hv, State.outData_of_not_valid hv]

/-- Settles O36: a cycle faults exactly at a read that gets nothing, which in a sound pipeline is one of an output without a
value. -/
theorem faultsAreReadsWithoutValue : Obligations.FaultsAreReadsWithoutValue := by
  intro s hinv
  refine ⟨step_not_refused s, step_stopped, fun c rest hs => ?_⟩
  have hports : State.Inv { s with ports := c.inputs } := hinv
  rw [step_faults_iff hs]
  simp only [hports.observe_eq_none]

/-- Settles O37: the data outputs have no value while `out_valid` is not 1, and a read without a value faults. -/
theorem readWithoutValueFaults : Obligations.ReadWithoutValueFaults := by
  intro s c rest hs
  constructor
  · intro hmem hv
    have hnone : State.observe { s with ports := c.inputs } .data = none := by
      simp [State.observe, State.outData_of_not_valid hv]
    exact ⟨(step_faults_iff hs).mpr ⟨_, hmem, hnone⟩, fun hhead => step_faults_at_head hs hhead hnone⟩
  · intro hmem hv
    have hnone : State.observe { s with ports := c.inputs } .outValid = none := by
      simp [State.observe, hv]
    exact ⟨(step_faults_iff hs).mpr ⟨_, hmem, hnone⟩, fun hhead => step_faults_at_head hs hhead hnone⟩

end Sys2Proof.Machine
end

section
/-! SUPPORT. One operand from the cycle that presents it to the cycle that reads its result (R24). -/

namespace Sys2Proof.Machine

/-- As many cycles as stages, none of them a reset, bring what the first of them entered into the last stage. -/
theorem getLast?_stagesAfterCycles {c : HostCycle} {cs : List HostCycle} {l : List Stage}
    (h : ∀ d ∈ c :: cs, d.inputs.rst = false) (hlen : cs.length + 1 = l.length) :
    (stagesAfterCycles (c :: cs) l).getLast? = some c.entering := by
  rw [stagesAfterCycles_of_no_reset h, List.take_left' (by simp [hlen])]
  simp

/-- Settles O44: the operand's result moves from the first stage to the last in as many cycles as there are stages, and the
reads of the next cycle find it there; without stages they find it in the operand's own cycle. -/
theorem hostTakesResultAfterPipeStages : Obligations.HostTakesResultAfterPipeStages := by
  constructor
  · intro s b cs last rest hs hlen hcs
    have hs' : s.schedule = (HostCycle.presenting b :: cs) ++ ⟨last, [.outValid, .data]⟩ :: rest := hs
    have hquiet : ∀ c ∈ HostCycle.presenting b :: cs, c.reads = [] :=
      List.forall_mem_cons.mpr ⟨rfl, fun c hc => (hcs c hc).2⟩
    have hnoReset : ∀ c ∈ HostCycle.presenting b :: cs, c.inputs.rst = false :=
      List.forall_mem_cons.mpr ⟨rfl, fun c hc => (hcs c hc).1⟩
    obtain ⟨t, ht, hlog⟩ := run_quiet hs' hquiet
    obtain ⟨hstages, hsched⟩ := run_stages hs' ht
    have hlast : t.stages.getLast? = some (.holding (F b)) := by
      rw [hstages, getLast?_stagesAfterCycles hnoReset hlen]
      rfl
    obtain ⟨hv, hd⟩ := State.outputs_of_last_holding hlast
    have hread := State.outputs_of_last_holding (s := { t with ports := last }) hlast
    obtain ⟨u, hu, hulog⟩ := step_takes_result hsched rfl hread
    exact ⟨t, u, by rwa [← hlen], hv, hd, hu, by rw [hulog, hlog]⟩
  · intro s b rest hstages hs
    exact step_takes_result hs rfl (State.outputs_of_operand hstages rfl)

end Sys2Proof.Machine
end

section
/-! SUPPORT. One cycle, stage by stage and port by port (R16, R19, R23, R25, R34, R45). -/

namespace Sys2Proof.Machine

/-- Settles O23: an instruction is one accepted operand, and accepting one only shifts the stages. -/
theorem operationFrame : Obligations.OperationFrame := by
  intro i s t h
  obtain ⟨r, hr⟩ := exec_accepts i s
  cases hr.symm.trans h
  exact ⟨rfl, rfl, rfl, shiftIn_length _ _, fun k hk => shiftIn_next _ _ hk⟩

/-- What a cycle enters, field by field (R23). -/
theorem HostCycle.entering_eq (c : HostCycle) : c.entering =
    { v := some c.inputs.inValid, r := if c.inputs.inValid then some (F c.inputs.inBits) else none } := by
  cases h : c.inputs.inValid
  · rw [HostCycle.entering_idle h]; rfl
  · rw [HostCycle.entering_operand h]; rfl

/-- Settles O31: the stages after the cycle, read one place at a time. -/
theorem stagesUpdateTogether : Obligations.StagesUpdateTogether := by
  intro s t c rest hs h
  rw [(step_stages hs h).1]
  refine ⟨c.length_nextStages _, fun hr k hk => ?_, fun hr => ?_⟩
  · rw [HostCycle.nextStages_reset hr, List.getElem?_replicate_of_lt hk]
    rfl
  · rw [HostCycle.nextStages_shift hr, ← HostCycle.entering_eq]
    exact ⟨shiftIn_first _, fun k hk => shiftIn_next _ _ hk⟩

/-- The edge of a cycle that presents no operand, whatever stands on `in_bits` (R16, R45). -/
theorem edge_of_no_operand {s : State} (h : ¬ (s.ports.rst = false ∧ s.ports.inValid = true)) :
    edge s = .next
      { s with stages := if s.ports.rst then s.stages.map fun _ => .invalid else shiftIn .bubble s.stages } := by
  cases hr : s.ports.rst with
  | true => rw [edge_reset hr]; rfl
  | false =>
    have hv : s.ports.inValid = false := by simpa [hr] using h
    rw [edge_idle hr hv]
    rfl

/-- Settles O33: the reads get the same, as the outputs do not depend on `in_bits`, and the edge does not look at it. -/
theorem unusedInBitsHaveNoEffect : Obligations.UnusedInBitsHaveNoEffect := by
  intro s rst inValid b b' reads rest h s₁ s₂
  have hs₁ : s₁.schedule = ⟨⟨rst, inValid, b⟩, reads⟩ :: rest := rfl
  have hs₂ : s₂.schedule = ⟨⟨rst, inValid, b'⟩, reads⟩ :: rest := rfl
  let d₁ : State := { s₁ with ports := ⟨rst, inValid, b⟩ }
  let d₂ : State := { s₂ with ports := ⟨rst, inValid, b'⟩ }
  have hobs : d₁.observe = d₂.observe := by
    obtain ⟨hv, hd⟩ := State.outputs_ignore_inBits (s := d₁) (t := d₂) rfl rfl rfl h
    exact State.observe_congr hv hd
  have hfirst : d₁.firstUnreadable reads = d₂.firstUnreadable reads := by
    rw [State.firstUnreadable, State.firstUnreadable, hobs]
  cases hread : d₂.firstUnreadable reads with
  | some k =>
    rw [step_of_unreadable hs₁ (hfirst.trans hread), step_of_unreadable hs₂ hread]
    exact ⟨fun f => Iff.rfl, fun t₁ ht => by cases ht⟩
  | none =>
    rw [step_of_readable hs₁ (hfirst.trans hread), step_of_readable hs₂ hread, hobs, edge_of_no_operand h,
      edge_of_no_operand h]
    refine ⟨fun f => by simp, fun t₁ ht => ⟨_, rfl, ?_⟩⟩
    cases ht
    exact ⟨rfl, rfl, rfl, State.outputs_ignore_inBits rfl rfl rfl h⟩

/-- Settles O29: with the reads done the operand still stands on the ports, and the edge runs what it decodes to. -/
theorem stepRunsDecodedOperand : Obligations.StepRunsDecodedOperand := by
  intro s u b reads rest hs hreads
  obtain ⟨-, hports, -⟩ := State.readPorts_frame hreads
  have hports : u.ports = .ofOperand b := hports
  rw [step_of_beforeEdge hs hreads, edge_operand (by rw [hports]; rfl) (by rw [hports]; rfl), hports]
  rfl

/-- Settles O32: the outputs by the last stage when there is one, and by the inputs when there is none. -/
theorem outputsAreLastStage : Obligations.OutputsAreLastStage := by
  intro s
  constructor
  · intro before last hs
    have hlast : s.stages.getLast? = some last := by simp [hs]
    have hv := State.outValid_of_last hlast
    exact ⟨hv, State.outData_of_last hlast, fun hne => State.outData_of_not_valid (by rwa [hv])⟩
  · intro hs
    have hv := State.outValid_of_no_stage hs
    refine ⟨hv, fun hin hr => State.outData_of_no_stage hs (by simp [hv, hin, hr]), fun h => ?_⟩
    exact State.outData_of_not_valid (by simpa [hv] using h)

/-- Settles O34: a cycle without reads reaches its edge, which takes the operand in. -/
theorem everyOperandIsAccepted : Obligations.EveryOperandIsAccepted := by
  intro s b rest hs
  refine ⟨?_, fun hnil => State.outputs_of_operand hnil rfl⟩
  obtain ⟨t, ht, -⟩ := step_quiet hs rfl
  obtain ⟨hstages, hsched⟩ := step_stages hs ht
  rw [HostCycle.nextStages_shift rfl, HostCycle.entering_operand rfl] at hstages
  exact ⟨t, ht, hsched, by rw [hstages, shiftIn_length], fun hne => by rw [hstages]; exact shiftIn_first _ hne⟩

/-- After reset `out_valid` is 0 and the data outputs have no value, with stages and without (R34). -/
theorem State.resetWith_outputs (p : Nat) :
    (State.resetWith p).outValid = some false ∧ (State.resetWith p).outData = none := by
  cases p with
  | zero => exact ⟨rfl, rfl⟩
  | succ p => exact State.outputs_of_last_invalid (by simp [List.getLast?_replicate])

/-- Settles O41: the reset state is made of invalid stages, and a reset edge makes such of every stage. -/
theorem resetState : Obligations.ResetState := by
  obtain ⟨hv, hd⟩ := State.resetWith_outputs Config.pipeStages
  refine ⟨List.length_replicate, fun st h => ?_, rfl, rfl, hv, hd, fun p => ?_⟩
  · rw [List.eq_of_mem_replicate h]
    exact ⟨rfl, rfl⟩
  · rw [step_of_beforeEdge rfl (State.beforeEdge_quiet _ [] rfl), edge_reset rfl]
    simp [State.resetEdge, State.resetWith, State.powerUpWith]

end Sys2Proof.Machine
end

section
/-! SUPPORT. What a run of cycles brings to the outputs, and what a cycle's reads leave alone (R39, R40, R70). -/

namespace Sys2Proof.Machine

theorem stagesAfterCycles_append (cs ds : List HostCycle) (l : List Stage) :
    stagesAfterCycles (cs ++ ds) l = stagesAfterCycles ds (stagesAfterCycles cs l) :=
  List.foldl_append

/-- Cycles without reset bring what the cycle as many back as there are stages entered into the last stage. -/
theorem getLast?_stagesAfterCycles_of_no_reset {cs : List HostCycle} {c : HostCycle} {l : List Stage}
    (h : ∀ d ∈ cs, d.inputs.rst = false) (hlen : l.length ≤ cs.length)
    (hc : cs[cs.length - l.length]? = some c) : (stagesAfterCycles cs l).getLast? = some c.entering := by
  obtain ⟨hlt, hget⟩ := List.getElem?_eq_some_iff.mp hc
  have hdrop := List.drop_eq_getElem_cons hlt
  rw [hget] at hdrop
  rw [← List.take_append_drop (cs.length - l.length) cs, stagesAfterCycles_append, hdrop]
  apply getLast?_stagesAfterCycles
  · intro d hd
    rw [← hdrop] at hd
    exact h d (List.mem_of_mem_drop hd)
  · rw [length_stagesAfterCycles, List.length_drop]
    omega

/-- With what a cycle entered in the last stage, the outputs are the cycle's `in_valid` and its result or no value (R25). -/
theorem State.outputs_of_last_entering {s : State} {c : HostCycle} (h : s.stages.getLast? = some c.entering) :
    s.outValid = some c.inputs.inValid ∧
    s.outData = if c.inputs.inValid then some (F c.inputs.inBits).onPorts else none := by
  cases hv : c.inputs.inValid with
  | true =>
    rw [HostCycle.entering_operand hv] at h
    exact State.outputs_of_last_holding h
  | false =>
    rw [HostCycle.entering_idle hv] at h
    exact State.outputs_of_last_invalid h

/-- Settles O45: the last stage holds what the cycle as many back as there are stages entered, and the outputs show it. -/
theorem resultsLeaveInOrder : Obligations.ResultsLeaveInOrder := by
  intro s t cs rest c hs hr _ hlen hc h
  apply State.outputs_of_last_entering
  rw [(run_stages hs h).1]
  exact getLast?_stagesAfterCycles_of_no_reset hr hlen hc

/-- An edge leaves the inputs of its cycle on the ports. -/
theorem edge_ports {s t : State} (h : edge s = .next t) : t.ports = s.ports := by
  obtain ⟨-, rfl⟩ | ⟨hr, hv, hx⟩ | ⟨-, -, rfl⟩ := edge_cases h
  · rfl
  · rw [exec_decode] at hx
    cases hx
    simp [Inputs.ofOperand, ← hr, ← hv]
  · rfl

/-- A cycle that answers leaves its inputs on the ports. -/
theorem step_ports {s t : State} {c : HostCycle} {rest : List HostCycle} (hs : s.schedule = c :: rest)
    (h : step s = .next t) : t.ports = c.inputs := by
  obtain ⟨h0, -⟩ | ⟨c', rest', u, hs', hb, he⟩ := step_cases h
  · simp [h0] at hs
  · obtain ⟨rfl, rfl⟩ : c = c' ∧ rest = rest' := by simpa [hs] using hs'
    exact (edge_ports he).trans (State.beforeEdge_frame hb).2.1

/-- A read that succeeds adds what it got to the log and changes nothing else (R39). -/
theorem State.readPort_eq_next {s t : State} {k : Read} (h : s.readPort k = .next t) :
    ∃ o, s.observe k = some o ∧ t = { s with log := o :: s.log } := by
  cases ho : s.observe k with
  | none => rw [State.readPort_of_not_observe ho] at h; cases h
  | some o => rw [State.readPort_of_observe ho] at h; cases h; exact ⟨o, rfl, rfl⟩

/-- Settles O35: the stages, ports and schedule after a cycle follow from its inputs, and what a read gets does not depend on
the log. -/
theorem readsHaveNoSideEffect : Obligations.ReadsHaveNoSideEffect := by
  constructor
  · intro s t₁ t₂ inputs reads₁ reads₂ rest h₁ h₂
    obtain ⟨hstages₁, hsched₁⟩ := step_stages rfl h₁
    obtain ⟨hstages₂, hsched₂⟩ := step_stages rfl h₂
    have hports₁ := step_ports rfl h₁
    have hports₂ := step_ports rfl h₂
    have hstages : t₁.stages = t₂.stages := hstages₁.trans hstages₂.symm
    have hports : t₁.ports = t₂.ports := hports₁.trans hports₂.symm
    have hsched : t₁.schedule = t₂.schedule := hsched₁.trans hsched₂.symm
    rw [← hstages, ← hports, ← hsched]
  · intro s t k h
    obtain ⟨o, ho, rfl⟩ := State.readPort_eq_next h
    exact ⟨o, rfl, State.readPort_of_observe ((congrFun (s.observe_logged o) k).trans ho)⟩

/-- Settles O50: a valid output comes from a last stage that holds one operand's result or, without stages, from the operand
on the ports. -/
theorem validOutputsAreOneResult : Obligations.ValidOutputsAreOneResult := fun _ hinv hv => hinv.outData_of_valid hv

end Sys2Proof.Machine
end

section
/-! SUPPORT. The fields of an operand as shifts and masks, as bounds, and under an inverted sign bit (R49, R59 to R61). -/

namespace Sys2Proof

/-- Extracting bits is shifting them down and masking off the rest (R59 to R61). -/
theorem zeroExtend_extractLsb' (b : Word) {k n : Nat} (hn : n ≤ 64) :
    (b.extractLsb' k n).zeroExtend 64 = (b >>> k) &&& BitVec.ofNat 64 (2 ^ n - 1) := by
  have hpow : 2 ^ n ≤ 2 ^ 64 := Nat.pow_le_pow_right (by decide) hn
  apply BitVec.eq_of_toNat_eq
  rw [BitVec.toNat_and, BitVec.toNat_ushiftRight, BitVec.toNat_ofNat, Nat.mod_eq_of_lt (by omega),
    Nat.and_two_pow_sub_one_eq_mod, BitVec.zeroExtend, BitVec.toNat_setWidth, BitVec.extractLsb'_toNat]
  exact Nat.mod_eq_of_lt ((Nat.mod_lt _ (Nat.two_pow_pos n)).trans_le hpow)

/-- The fields joined in their places are the operand (R49). -/
theorem joinFields_fields (b : Word) : joinFields (signField b) (bexpField b) (fracField b) = b :=
  fields_ext (signField_joinFields ..) (bexpField_joinFields ..) (fracField_joinFields ..)

/-- Settles O2: each field is an extraction, which is a shift and a mask, and an operand is determined by its fields. -/
theorem fieldsRebuildOperand : Obligations.FieldsRebuildOperand := fun b =>
  ⟨zeroExtend_extractLsb' b (by decide), zeroExtend_extractLsb' b (by decide), zeroExtend_extractLsb' b (by decide),
    joinFields_fields b⟩

@[simp] theorem bexpField_flipSign (b : Word) : bexpField (b ^^^ 0x8000000000000000#64) = bexpField b := by
  have h : bexpField 0x8000000000000000#64 = 0#11 := by decide
  rw [bexpField, BitVec.extractLsb'_xor, ← bexpField, ← bexpField, h, BitVec.xor_zero]

@[simp] theorem fracField_flipSign (b : Word) : fracField (b ^^^ 0x8000000000000000#64) = fracField b := by
  have h : fracField 0x8000000000000000#64 = 0#52 := by decide
  rw [fracField, BitVec.extractLsb'_xor, ← fracField, ← fracField, h, BitVec.xor_zero]

/-- Bit 51 of a fraction as a bound on the fraction (R65, R66). -/
theorem frac_getLsbD_top (f : BitVec 52) : f.getLsbD 51 = decide (2 ^ 51 ≤ f.toNat) :=
  (BitVec.msb_eq_getLsbD_last f).symm.trans (BitVec.msb_eq_decide f)

end Sys2Proof
end

section
/-! SUPPORT. The class row of an operand is the row of its status, and so the only class row that selects it; its fields
and its ranges follow (R50, R51, R57, R69). -/

namespace Sys2Proof.Machine

/-- The class row whose operands have a status (R50); `row_selects_iff` ties it to the model. -/
def Status.row : Status → RowName
  | .normal => .normal
  | .denormal => .denormal
  | .infinity => .infinity
  | .quietNaN => .quietNaN
  | .signalingNaN => .signalingNaN

theorem Status.row_inj {st st' : Status} : st.row = st'.row ↔ st = st' := by
  cases st <;> cases st' <;> decide

/-- Every row but DECOMPOSE is the row of a status. -/
theorem exists_row_eq {r : RowName} (h : r ≠ .decompose) : ∃ st : Status, st.row = r := by
  cases r with
  | decompose => exact absurd rfl h
  | infinity => exact ⟨.infinity, rfl⟩
  | quietNaN => exact ⟨.quietNaN, rfl⟩
  | signalingNaN => exact ⟨.signalingNaN, rfl⟩
  | denormal => exact ⟨.denormal, rfl⟩
  | normal => exact ⟨.normal, rfl⟩

/-- The mask, match and extra condition of a status's row select just the operands that `classify` gives the status. -/
theorem row_selects_iff (st : Status) (b : Word) : st.row.selects b = true ↔ (F b).status = st := by
  rw [F_status, classify]
  cases st with
  | normal => rw [Status.row, selects_normal]; split_ifs <;> simp_all
  | denormal => rw [Status.row, selects_denormal]; split_ifs <;> simp_all
  | infinity => rw [Status.row, selects_infinity]; split_ifs <;> simp_all
  | quietNaN => rw [Status.row, selects_quietNaN]; split_ifs <;> simp_all
  | signalingNaN => rw [Status.row, selects_signalingNaN]; split_ifs <;> simp_all

theorem classRow_ne_decompose (b : Word) : classRow b ≠ .decompose := by
  unfold classRow
  split_ifs <;> decide

/-- The class row selects the operand, so it is the row of its status. -/
theorem classRow_eq_status_row (b : Word) : classRow b = (F b).status.row := by
  obtain ⟨st, hst⟩ := exists_row_eq (classRow_ne_decompose b)
  have hsel := classRow_selects b
  rw [← hst, row_selects_iff] at hsel
  rw [← hst, hsel]

/-- Settles O9: the class row is the row of the status, and different statuses have different rows. -/
theorem statusAgreesWithClassRow : Obligations.StatusAgreesWithClassRow := by
  intro b
  have h (st : Status) : (F b).status = st ↔ classRow b = st.row := by
    rw [classRow_eq_status_row, Status.row_inj]
  exact ⟨h .normal, h .denormal, h .infinity, h .quietNaN, h .signalingNaN⟩

/-- A row other than DECOMPOSE selects an operand exactly when it is the operand's class row (R52, R57). -/
theorem selects_iff_eq_classRow {r : RowName} (h : r ≠ .decompose) (b : Word) :
    r.selects b = true ↔ r = classRow b := by
  obtain ⟨st, rfl⟩ := exists_row_eq h
  rw [row_selects_iff, classRow_eq_status_row, Status.row_inj, eq_comm]

/-- Settles O5: a row selects exactly the operands of its status, and an operand has one status. -/
theorem oneClassRowSelectsEachOperand : Obligations.OneClassRowSelectsEachOperand :=
  fun b => ⟨selects_decompose b, fun _ h => selects_iff_eq_classRow h b⟩

theorem classRow_eq_infinity (b : Word) :
    classRow b = .infinity ↔ (bexpField b).toNat = 2047 ∧ (fracField b).toNat = 0 := by
  rw [eq_comm, ← selects_iff_eq_classRow (by decide), selects_infinity, ← BitVec.toNat_inj, ← BitVec.toNat_inj]
  rfl

theorem classRow_eq_quietNaN (b : Word) :
    classRow b = .quietNaN ↔ (bexpField b).toNat = 2047 ∧ 2 ^ 51 ≤ (fracField b).toNat := by
  rw [eq_comm, ← selects_iff_eq_classRow (by decide), selects_quietNaN, frac_top_eq_one, ← BitVec.toNat_inj]
  rfl

theorem classRow_eq_signalingNaN (b : Word) :
    classRow b = .signalingNaN ↔
      (bexpField b).toNat = 2047 ∧ (fracField b).toNat < 2 ^ 51 ∧ (fracField b).toNat ≠ 0 := by
  rw [eq_comm, ← selects_iff_eq_classRow (by decide), selects_signalingNaN, ne_eq, ne_eq, frac_top_eq_one, not_le,
    ← BitVec.toNat_inj, ← BitVec.toNat_inj]
  rfl

theorem classRow_eq_denormal (b : Word) : classRow b = .denormal ↔ (bexpField b).toNat = 0 := by
  rw [eq_comm, ← selects_iff_eq_classRow (by decide), selects_denormal, ← BitVec.toNat_inj]
  rfl

theorem classRow_eq_normal (b : Word) :
    classRow b = .normal ↔ 1 ≤ (bexpField b).toNat ∧ (bexpField b).toNat ≤ 2046 := by
  have := (bexpField b).isLt
  rw [eq_comm, ← selects_iff_eq_classRow (by decide), selects_normal, ne_eq, ne_eq, ← BitVec.toNat_inj,
    ← BitVec.toNat_inj, BitVec.toNat_ofNat, BitVec.toNat_ofNat]
  omega

/-- The class row of an operand depends on its exponent and fraction alone (R50). -/
theorem classRow_congr {b c : Word} (he : bexpField b = bexpField c) (hf : fracField b = fracField c) :
    classRow b = classRow c := by
  rw [classRow_eq_status_row, classRow_eq_status_row, F_status, F_status, he, hf]

/-- Settles O6: the conditions of the rows on the fields, and inverting the sign bit changes neither field in them. -/
theorem classRowFollowsFields : Obligations.ClassRowFollowsFields := by
  intro b
  rw [frac_getLsbD_top, decide_eq_true_eq, decide_eq_false_iff_not, not_le]
  exact ⟨classRow_eq_infinity b, classRow_eq_quietNaN b, classRow_eq_signalingNaN b, classRow_eq_denormal b,
    classRow_eq_normal b, classRow_congr (bexpField_flipSign b) (fracField_flipSign b)⟩

/-- Settles O7: the operand without its sign is its exponent times 2 ^ 52 plus its fraction. -/
theorem classRanges : Obligations.ClassRanges := by
  intro b n
  have hn : n = (bexpField b).toNat * 2 ^ 52 + (fracField b).toNat := by
    rw [toNat_bexpField, toNat_fracField]
    omega
  have he := (bexpField b).isLt
  have hf := (fracField b).isLt
  rw [classRow_eq_normal, classRow_eq_denormal, classRow_eq_infinity, classRow_eq_signalingNaN, classRow_eq_quietNaN, hn]
  refine ⟨?_, ?_, ?_, ?_, ?_⟩ <;> omega

end Sys2Proof.Machine
end

section
/-! SUPPORT. The control inputs of a cycle, words of the test vectors, and the codes of the statuses (R45, R54, R55,
R57). -/

namespace Sys2Proof.Machine

/-- Settles O30: with the reads done the edge follows the table of R45, and the decoded operand has the effect of
DECOMPOSE. -/
theorem controlInputsSelectAction : Obligations.ControlInputsSelectAction := by
  intro s u c rest hs hreads
  obtain ⟨-, hports, -⟩ := State.readPorts_frame hreads
  have hports : u.ports = c.inputs := hports
  rw [step_of_beforeEdge hs hreads]
  refine ⟨fun hr => ?_, fun hr hv => ?_, fun hr hv => ?_⟩
  · rw [edge_reset (by rw [hports, hr]), State.resetEdge, List.map_const']
    rfl
  · rw [edge_operand (by rw [hports, hr]) (by rw [hports, hv]), hports, exec_decode]
    rfl
  · rw [edge_idle (by rw [hports, hr]) (by rw [hports, hv])]
    rfl

/-- Settles O1: the decoder evaluated on each word. -/
theorem operandWordsDecode : Obligations.OperandWordsDecode := by
  refine ⟨?_, ?_, ?_, ?_, ?_, ?_, ?_, ?_⟩ <;> decide

/-- Reading the code of a status gives the status (R54). -/
@[simp] theorem Status.ofCode_code (st : Status) : Status.ofCode st.code = some st := by
  cases st <;> decide

/-- What the data outputs show is some result (R25). -/
theorem State.outData_eq_onPorts {s : State} {d : OutPorts} (h : s.outData = some d) : ∃ r : Result, d = r.onPorts := by
  obtain ⟨r, -, hr⟩ := Option.map_eq_some_iff.mp h
  exact ⟨r, hr.symm⟩

/-- Settles O10: the data outputs show the code of a result's status, which reads back. -/
theorem statusCodes : Obligations.StatusCodes := by
  refine ⟨rfl, rfl, rfl, rfl, rfl, Status.ofCode_code, by decide, fun s d h => ?_⟩
  obtain ⟨r, rfl⟩ := State.outData_eq_onPorts h
  simp [Result.onPorts]

end Sys2Proof.Machine
end

section
/-! SUPPORT. The status of a result from the operand's fields, and what inverting the sign bit does to a result (R64 to
R68, R71, R78). -/

namespace Sys2Proof.Machine

/-- Settles O8: a status is its class row's, whose condition on the fields is known. -/
theorem statusFollowsFields : Obligations.StatusFollowsFields := by
  intro b
  obtain ⟨hnormal, hdenormal, hinfinity, hquiet, hsignaling⟩ := statusAgreesWithClassRow b
  obtain ⟨hinfinity', hquiet', hsignaling', hdenormal', hnormal', -⟩ := classRowFollowsFields b
  exact ⟨hinfinity.trans hinfinity', hquiet.trans hquiet', hsignaling.trans hsignaling', hdenormal.trans hdenormal',
    hnormal.trans hnormal'⟩

@[simp] theorem signField_flipSign (b : Word) : signField (b ^^^ 0x8000000000000000#64) = ~~~ signField b := by
  have h : signField 0x8000000000000000#64 = BitVec.allOnes 1 := by decide
  rw [signField, BitVec.extractLsb'_xor, ← signField, ← signField, h, BitVec.xor_allOnes]

/-- The other sign negates the signed magnitude (R78). -/
theorem applySign_not (s : BitVec 1) (mag : Int) : applySign (~~~ s) mag = -applySign s mag := by
  rcases sign_cases s with rfl | rfl
  · rw [applySign_zero]; exact applySign_one mag
  · rw [applySign_one, neg_neg]; exact applySign_zero mag

/-- The mantissa of a result is the magnitude of its fraction with the operand's sign (R75, R78, R79). -/
theorem F_mantissa_toInt (b : Word) :
    (F b).mantissa.toInt = applySign (signField b) (magnitude (F b).status (fracField b)) :=
  assemble_mantissa _ _ _ _ (magnitude_bounds _ _)

/-- The exponent output of a result depends on the operand's exponent field alone (R81, R82). -/
theorem F_exponent2 (b : Word) : (F b).exponent2 = toBits32 (exponentOf (bexpField b)) := rfl

/-- Settles O11: status and exponent depend on fields that keep their values, and the mantissa is the same magnitude
with the other sign. -/
theorem signBitOnlyNegatesMantissa : Obligations.SignBitOnlyNegatesMantissa := by
  intro b c
  have hsign : signField c = ~~~ signField b := signField_flipSign b
  have hbexp : bexpField c = bexpField b := bexpField_flipSign b
  have hfrac : fracField c = fracField b := fracField_flipSign b
  have hstatus : (F c).status = (F b).status := by rw [F_status, F_status, hbexp, hfrac]
  refine ⟨hstatus, ?_, hbexp, hfrac, hsign, ?_⟩
  · rw [F_exponent2, F_exponent2, hbexp]
  · rw [F_mantissa_toInt, F_mantissa_toInt, hstatus, hsign, hfrac, applySign_not]

end Sys2Proof.Machine
end

section
/-! SUPPORT. Each class row is DECOMPOSE on its encoding, and each row's result has the signed magnitude and the exponent
its rule gives (R74 to R76, R78, R86 to R92). -/

namespace Sys2Proof.Machine

/-- Settles O22: a well-formed instruction and DECOMPOSE of its encoding both take in `F` of that encoding. -/
theorem classRowRefinesDecompose : Obligations.ClassRowRefinesDecompose :=
  ⟨fun i s h => (exec_wellFormed h s).trans (exec_wellFormed (i := .decompose (encode i)) rfl s).symm,
    fun b s => (exec_decode b s).trans (exec_wellFormed (i := .decompose b) rfl s).symm⟩

/-- Settles O16: the meaning of DECOMPOSE is this state, with `F` written out. -/
theorem decomposeCompletes : Obligations.DecomposeCompletes := fun _ _ => rfl

/-- The hidden bit stands above the fraction, so joining it is adding it (R75). -/
theorem toNat_or_hiddenBit (f : BitVec 52) : (f.zeroExtend 64 ||| 1#64 <<< 52).toNat = f.toNat + 2 ^ 52 := by
  have hbit : (1#64 <<< 52).toNat = 1 <<< 52 := by decide
  rw [BitVec.toNat_or, hbit, BitVec.zeroExtend, BitVec.toNat_setWidth_of_le (by decide), Nat.or_comm,
    ← Nat.shiftLeft_add_eq_or_of_lt f.isLt, add_comm, Nat.one_shiftLeft]

/-- Settles O12: the hidden bit lies above every fraction, and a fraction is below `2 ^ 52`. -/
theorem magnitudeOfStatus : Obligations.MagnitudeOfStatus := by
  intro f
  have hnormal : magnitude .normal f = f.toNat + 2 ^ 52 := rfl
  have hdenormal : magnitude .denormal f = f.toNat := rfl
  have hf := f.isLt
  refine ⟨?_, hnormal, by omega, by omega, hdenormal, by omega, rfl, rfl, rfl, fun st => magnitude_bounds st f⟩
  rw [hnormal, toNat_or_hiddenBit]
  push_cast
  rfl

/-- Applying a sign bit is multiplying by its power of -1 (R78). -/
theorem applySign_eq_mul (s : BitVec 1) (mag : Int) : applySign s mag = (-1) ^ s.toNat * mag := by
  rcases sign_cases s with rfl | rfl
  · simp [applySign_zero]
  · simp [applySign_one]

/-- A sign bit leaves a magnitude's absolute value alone. -/
theorem abs_applySign (s : BitVec 1) {mag : Int} (h : 0 ≤ mag) : |applySign s mag| = mag := by
  rcases sign_cases s with rfl | rfl
  · rw [applySign_zero, abs_of_nonneg h]
  · rw [applySign_one, abs_neg, abs_of_nonneg h]

/-- A magnitude that fits is on the mantissa output exactly, with its sign (R78, R79). -/
theorem assemble_mantissa_signed (st : Status) {mag : Int} (s : BitVec 1) (e : BitVec 11) (f : BitVec 52)
    (h : 0 ≤ mag ∧ mag ≤ 2 ^ 53 - 1) :
    (assemble st mag s e f).mantissa.toInt = (-1) ^ s.toNat * mag ∧ |(assemble st mag s e f).mantissa.toInt| = mag := by
  rw [assemble_mantissa st s e f h]
  exact ⟨applySign_eq_mul s mag, abs_applySign s h.1⟩

/-- Settles O17: the magnitude is the fraction with the hidden bit. -/
theorem normalCompletes : Obligations.NormalCompletes := by
  intro sign bexp frac s hmin hmax
  have hf := uint_bounds frac
  obtain ⟨hmant, habs⟩ := assemble_mantissa_signed .normal (mag := 2 ^ 52 + uint frac) sign bexp frac (by omega)
  have hexp : _ = (bexp.toNat : Int) - 1075 := assemble_exponent2 .normal (2 ^ 52 + uint frac) sign bexp frac
  exact ⟨_, rfl, rfl, rfl, hmant, by rw [habs]; omega, by rw [habs]; omega, hexp, by rw [hexp]; omega,
    by rw [hexp]; omega, rfl, rfl, rfl⟩

/-- Settles O18: the magnitude is the fraction, and the exponent field is 0. -/
theorem denormalCompletes : Obligations.DenormalCompletes := by
  intro sign frac s
  have hf := uint_bounds frac
  obtain ⟨hmant, habs⟩ := assemble_mantissa_signed .denormal (mag := uint frac) sign 0#11 frac (by omega)
  refine ⟨_, rfl, rfl, rfl, hmant, ?_, by rw [habs]; omega, assemble_exponent2 .denormal (uint frac) sign 0#11 frac,
    rfl, rfl, rfl⟩
  rintro rfl
  exact BitVec.eq_of_toInt_eq (hmant.trans (mul_zero _))

/-- Settles O19: the magnitude is 0, which has one encoding whatever the sign. -/
theorem infinityCompletes : Obligations.InfinityCompletes := by
  intro sign s
  obtain ⟨hmant, -⟩ := assemble_mantissa_signed .infinity (mag := 0) sign 0x7FF#11 0#52 (by omega)
  exact ⟨_, rfl, rfl, rfl, BitVec.eq_of_toInt_eq (hmant.trans (mul_zero _)),
    assemble_exponent2 .infinity 0 sign 0x7FF#11 0#52, rfl, rfl, rfl⟩

/-- Settles O20: the magnitude is the fraction, whose top bit is 1. -/
theorem quietNaNCompletes : Obligations.QuietNaNCompletes := by
  intro sign payload s frac
  have hp := uint_bounds payload
  have hfrac : frac.toNat = 2 ^ 51 + uint payload := by
    rw [toNat_topBitAppend, uint]
    push_cast
    rfl
  obtain ⟨hmant, habs⟩ := assemble_mantissa_signed .quietNaN (mag := 2 ^ 51 + uint payload) sign 0x7FF#11 frac
    (by omega)
  exact ⟨_, rfl, rfl, rfl, by rw [hmant, hfrac], by rw [habs]; omega, by rw [habs]; omega,
    assemble_exponent2 .quietNaN (2 ^ 51 + uint payload) sign 0x7FF#11 frac, rfl, rfl, rfl⟩

/-- Settles O21: the magnitude is the fraction, which is its payload since its top bit is 0. -/
theorem signalingNaNCompletes : Obligations.SignalingNaNCompletes := by
  intro sign payload s hne frac
  have hp := uint_bounds payload
  have hpos : uint payload ≠ 0 := fun h => hne (BitVec.eq_of_toNat_eq (Int.ofNat_inj.mp h))
  have hfrac : frac.toNat = uint payload := by
    rw [toNat_topBitAppend, uint]
    simp
  have htop : frac.getLsbD 51 = false := by
    rw [frac_getLsbD_top, decide_eq_false_iff_not]
    omega
  obtain ⟨hmant, habs⟩ := assemble_mantissa_signed .signalingNaN (mag := uint payload) sign 0x7FF#11 frac (by omega)
  exact ⟨_, rfl, rfl, rfl, by rw [hmant, hfrac], by rw [habs]; omega, by rw [habs]; omega,
    assemble_exponent2 .signalingNaN (uint payload) sign 0x7FF#11 frac, rfl, rfl, rfl, htop⟩

end Sys2Proof.Machine
end

section
/-! SUPPORT. The mantissa and exponent outputs as numbers: exact, in bounds, sign-extended, and what they say of the
operand (R79 to R84, R95, R96). -/

namespace Sys2Proof.Machine

/-- A number that fits `n` bits may be encoded in `n` bits and sign-extended, or encoded at once. -/
theorem signExtend_ofInt {n w : Nat} {i : Int} (hlow : -(2 ^ n : Nat) ≤ i * 2) (hhigh : i * 2 < (2 ^ n : Nat)) :
    (BitVec.ofInt n i).signExtend w = BitVec.ofInt w i := by
  rw [BitVec.signExtend, BitVec.toInt_ofInt, Int.bmod_eq_of_le_mul_two hlow hhigh]

/-- Settles O13: a signed magnitude fits 54 bits. -/
theorem mantissaNeverOverflows : Obligations.MantissaNeverOverflows := by
  intro b m
  obtain ⟨hnonneg, hmax⟩ := magnitude_bounds (F b).status (fracField b)
  obtain ⟨hlow, hhigh⟩ : -(2 ^ 53 - 1) ≤ m ∧ m ≤ 2 ^ 53 - 1 := applySign_bounds (signField b) hnonneg hmax
  refine ⟨F_mantissa_toInt b, hlow, hhigh, ?_⟩
  rw [signExtend_ofInt (by omega) (by omega)]
  rfl

/-- The exponent output is the biased exponent less 1075 (R81). -/
theorem F_exponent2_toInt (b : Word) : (F b).exponent2.toInt = ((bexpField b).toNat : Int) - 1075 :=
  assemble_exponent2 _ _ _ _ _

/-- Settles O14: a biased exponent less 1075 fits 12 bits. -/
theorem exponentIsBexpLess1075 : Obligations.ExponentIsBexpLess1075 := by
  intro b
  have he := (bexpField b).isLt
  have hexp := F_exponent2_toInt b
  refine ⟨hexp, by omega, by omega, ?_⟩
  rw [signExtend_ofInt (by omega) (by omega)]
  rfl

/-- An operand is Infinity or a NaN exactly when its exponent field is 2047 (R64 to R66). -/
theorem nonfinite_iff (b : Word) :
    (F b).status = .infinity ∨ (F b).status = .quietNaN ∨ (F b).status = .signalingNaN ↔ (bexpField b).toNat = 2047 := by
  obtain ⟨-, -, -, hdenormal, hnormal⟩ := statusFollowsFields b
  have hrest : (F b).status = .infinity ∨ (F b).status = .quietNaN ∨ (F b).status = .signalingNaN ↔
      ¬ (F b).status = .normal ∧ ¬ (F b).status = .denormal := by
    cases (F b).status <;> decide
  rw [hrest, hnormal, hdenormal]
  have he := (bexpField b).isLt
  omega

/-- Settles O15: the extremes are the encodings of the numbers for exponent fields 0 and 2047. -/
theorem exponentAtTheExtremes : Obligations.ExponentAtTheExtremes := by
  intro b
  obtain ⟨-, -, -, hdenormal, -⟩ := statusFollowsFields b
  have hmin : (0xFFFFFBCD#32).toInt = -1075 := by decide
  have hmax : (0x000003CC#32).toInt = 972 := by decide
  rw [hdenormal, nonfinite_iff, ← BitVec.toInt_inj, ← BitVec.toInt_inj, hmin, hmax, F_exponent2_toInt]
  omega

/-- Two signed magnitudes are equal exactly when the magnitudes are, with one sign unless they are 0 (R78). -/
theorem applySign_inj {s t : BitVec 1} {m n : Int} (hm : 0 ≤ m) (hn : 0 ≤ n) :
    applySign s m = applySign t n ↔ m = n ∧ (s = t ∨ m = 0) := by
  have hne : 0#1 ≠ 1#1 := by decide
  rcases sign_cases s with rfl | rfl <;> rcases sign_cases t with rfl | rfl <;>
    simp only [applySign_zero, applySign_one, hne, hne.symm, true_or, false_or, and_true] <;> omega

/-- A positive magnitude takes its sign bit's sign (R78). -/
theorem applySign_of_pos {s : BitVec 1} {mag : Int} (h : 0 < mag) :
    applySign s mag ≠ 0 ∧ (applySign s mag < 0 ↔ s = 1#1) := by
  rcases sign_cases s with rfl | rfl
  · rw [applySign_zero]
    exact ⟨h.ne', iff_of_false h.not_gt (by decide)⟩
  · rw [applySign_one]
    exact ⟨neg_ne_zero.mpr h.ne', iff_of_true (neg_neg_of_pos h) rfl⟩

/-- Operands of one status have one magnitude exactly when they have one fraction (R75). -/
theorem magnitude_inj {st : Status} {f g : BitVec 52} : magnitude st f = magnitude st g ↔ f = g := by
  rw [← BitVec.toNat_inj]
  cases st <;> simp only [magnitude, uint] <;> omega

/-- The magnitude is 0 exactly for a fraction of 0 without a hidden bit (R74, R75). -/
theorem magnitude_eq_zero {st : Status} {f : BitVec 52} : magnitude st f = 0 ↔ st ≠ .normal ∧ f.toNat = 0 := by
  cases st with
  | normal =>
    have hf := uint_bounds f
    simp only [magnitude, ne_eq, not_true, false_and, iff_false]
    omega
  | denormal | infinity | quietNaN | signalingNaN => simp [magnitude, uint]

/-- The mantissa is 0 exactly when its magnitude is (R78, R79). -/
theorem F_mantissa_eq_zero_iff_magnitude (b : Word) :
    (F b).mantissa = 0#64 ↔ magnitude (F b).status (fracField b) = 0 := by
  rw [← BitVec.toInt_inj, BitVec.toInt_zero, F_mantissa_toInt, ← abs_eq_zero, abs_applySign _ (magnitude_bounds _ _).1]

/-- The mantissa is 0 exactly for the operands with fraction 0 and exponent field 0 or 2047: zeros and infinities
(R80, R96). -/
theorem F_mantissa_eq_zero (b : Word) :
    (F b).mantissa = 0#64 ↔ (fracField b).toNat = 0 ∧ ((bexpField b).toNat = 0 ∨ (bexpField b).toNat = 2047) := by
  obtain ⟨-, -, -, -, hnormal⟩ := statusFollowsFields b
  have he := (bexpField b).isLt
  rw [F_mantissa_eq_zero_iff_magnitude, magnitude_eq_zero, ne_eq, hnormal]
  omega

/-- Settles O28: a nonzero magnitude takes the sign of the operand, and a zero one has fraction 0 and exponent field 0 or
2047. -/
theorem mantissaSign : Obligations.MantissaSign := by
  intro b
  refine ⟨fun h => ?_, ?_⟩
  · have hne : magnitude (F b).status (fracField b) ≠ 0 := by
      rw [ne_eq, magnitude_eq_zero]
      rintro ⟨hst, hf⟩
      obtain h | ⟨-, h⟩ := h
      · exact hst h
      · exact h (BitVec.eq_of_toNat_eq hf)
    rw [F_mantissa_toInt]
    exact applySign_of_pos ((magnitude_bounds _ _).1.lt_of_ne' hne)
  · rw [F_mantissa_eq_zero, toNat_fracField, toNat_bexpField]
    omega

/-- The result record fixes the exponent and fraction fields, and the sign unless the mantissa is 0 (R95). -/
theorem result_eq_iff (b c : Word) :
    ((F b).status = (F c).status ∧ (F b).mantissa = (F c).mantissa ∧ (F b).exponent2 = (F c).exponent2) ↔
      bexpField b = bexpField c ∧ fracField b = fracField c ∧ (signField b = signField c ∨ (F b).mantissa = 0#64) := by
  have hexp : (F b).exponent2 = (F c).exponent2 ↔ bexpField b = bexpField c := by
    rw [← BitVec.toInt_inj, F_exponent2_toInt, F_exponent2_toInt, ← BitVec.toNat_inj]
    omega
  have hmant (h : (F b).status = (F c).status) : (F b).mantissa = (F c).mantissa ↔
      fracField b = fracField c ∧ (signField b = signField c ∨ (F b).mantissa = 0#64) := by
    rw [F_mantissa_eq_zero_iff_magnitude, ← BitVec.toInt_inj, F_mantissa_toInt, F_mantissa_toInt,
      applySign_inj (magnitude_bounds _ _).1 (magnitude_bounds _ _).1, ← h, magnitude_inj]
  constructor
  · rintro ⟨hst, hm, he⟩
    exact ⟨hexp.mp he, (hmant hst).mp hm⟩
  · rintro ⟨he, hf, hs⟩
    have hst : (F b).status = (F c).status := by rw [F_status, F_status, he, hf]
    exact ⟨hst, (hmant hst).mpr ⟨hf, hs⟩, hexp.mpr he⟩

/-- The two operands with given exponent and fraction fields. -/
theorem eq_joinFields_iff (b : Word) (e : BitVec 11) (f : BitVec 52) :
    b = joinFields 0#1 e f ∨ b = joinFields 1#1 e f ↔ bexpField b = e ∧ fracField b = f := by
  have hs := sign_cases (signField b)
  simp only [eq_iff_fields, signField_joinFields, bexpField_joinFields, fracField_joinFields]
  tauto

/-- Settles O27: operands of one result differ at most in the sign, and then only where the mantissa is 0. -/
theorem resultDeterminesOperand : Obligations.ResultDeterminesOperand := by
  intro b c
  have hzero (x : Word) : x = 0x0000000000000000#64 ∨ x = 0x8000000000000000#64 ↔
      bexpField x = 0x000#11 ∧ fracField x = 0#52 := eq_joinFields_iff x 0x000#11 0#52
  have hinf (x : Word) : x = 0x7FF0000000000000#64 ∨ x = 0xFFF0000000000000#64 ↔
      bexpField x = 0x7FF#11 ∧ fracField x = 0#52 := eq_joinFields_iff x 0x7FF#11 0#52
  rw [result_eq_iff, F_mantissa_eq_zero, hzero, hzero, hinf, hinf, eq_iff_fields]
  simp only [← BitVec.toNat_inj, BitVec.toNat_ofNat]
  omega

end Sys2Proof.Machine
end

section
/-! SUPPORT. The value of a finite operand as a rational number, against mantissa and exponent of its result (R93, R94). -/

namespace Sys2Proof.Machine

/-- The mantissa as a rational number: the magnitude with its sign (R78, R79). -/
theorem F_mantissa_cast (b : Word) : ((F b).mantissa.toInt : ℚ) =
    (-1) ^ (signField b).toNat * (magnitude (F b).status (fracField b) : ℚ) := by
  rw [F_mantissa_toInt, applySign_eq_mul]
  push_cast
  rfl

/-- Settles O25: the 52 bits the mantissa is shifted up are what 1075 exceeds the bias 1023 by. -/
theorem normalReconstructs : Obligations.NormalReconstructs := by
  intro b h
  have hmag : (magnitude .normal (fracField b) : ℚ) = (1 + ((fracField b).toNat : ℚ) / 2 ^ 52) * 2 ^ 52 := by
    simp only [magnitude, uint]
    push_cast
    ring
  have hpow : (2 : ℚ) ^ (((bexpField b).toNat : Int) - 1023) =
      2 ^ 52 * 2 ^ (((bexpField b).toNat : Int) - 1075) := by
    rw [← zpow_natCast, ← zpow_add₀ two_ne_zero]
    congr 1
    push_cast
    ring
  rw [F_mantissa_cast, h, hmag, F_exponent2_toInt, hpow]
  ring

/-- Settles O26: the exponent is -1075, one less than the value's, and a number is half of itself for 0 alone. -/
theorem denormalReconstructsDoubled : Obligations.DenormalReconstructsDoubled := by
  intro b h value
  have hmant : ((F b).mantissa.toInt : ℚ) = (-1) ^ (signField b).toNat * ((fracField b).toNat : ℚ) := by
    rw [F_mantissa_cast, h]
    rfl
  obtain ⟨-, -, -, hdenormal, -⟩ := statusFollowsFields b
  have hexp : (F b).exponent2.toInt = -1075 := by
    rw [F_exponent2_toInt, hdenormal.mp h]
    rfl
  have hdouble : ((F b).mantissa.toInt : ℚ) * 2 ^ ((F b).exponent2.toInt + 1) = value := by
    rw [hmant, hexp]
    rfl
  have hhalf : ((F b).mantissa.toInt : ℚ) * 2 ^ (F b).exponent2.toInt = value / 2 := by
    rw [← hdouble, zpow_add_one₀ two_ne_zero]
    ring
  refine ⟨hdouble, hhalf, ?_⟩
  have hzero : value = 0 ↔ fracField b = 0#52 := by
    simp [value, ← BitVec.toNat_inj]
  rw [hhalf, ← hzero]
  constructor <;> intro hv <;> linarith

end Sys2Proof.Machine
end

section
/-! SUPPORT. No operand raises anything, and a stopped clock keeps the whole state (R97, R109). -/

namespace Sys2Proof.Machine

/-- Settles O24: both readings of a word take it in with `F` of it, so that result is in the first stage, or on the
outputs without stages. -/
theorem noOperandRaises : Obligations.NoOperandRaises := by
  intro b s
  obtain ⟨-, hrefines⟩ := classRowRefinesDecompose
  have hdecode := exec_decode b s
  exact ⟨_, hdecode, (hrefines b s).symm.trans hdecode, fun hne => shiftIn_first (.holding (F b)) hne,
    fun hnil => State.outputs_of_operand (by rw [State.accept_stages, hnil, shiftIn_nil]) (State.accept_ports s b (F b))⟩

/-- Settles O38, by induction on the number of steps: each of them leaves the state, and so its empty schedule. -/
theorem stoppedClockKeepsStages : Obligations.StoppedClockKeepsStages := by
  intro s n hs
  induction n with
  | zero => exact run_zero s
  | succ n ih => rw [run_succ n (step_stopped hs), ih]

end Sys2Proof.Machine
end

section
/-! SUPPORT. Reset edges from any state, and when the stages and `out_valid` have a value after power-up (R110, R111,
R112). -/

namespace Sys2Proof.Machine

/-- Cycles of which the last is a reset leave every stage invalid, whatever the earlier ones were (R110, R111). -/
theorem stagesAfterCycles_reset {c : HostCycle} (cs : List HostCycle) (h : c.inputs.rst = true) (l : List Stage) :
    stagesAfterCycles (cs ++ [c]) l = List.replicate l.length .invalid := by
  simp [stagesAfterCycles_append, HostCycle.nextStages_reset h]

/-- With stages, all of them invalid, `out_valid` is 0 and the data outputs have no value (R17, R25). -/
theorem State.outputs_of_all_invalid {s : State} {n : Nat} (h : s.stages = List.replicate n .invalid) (hn : n ≠ 0) :
    s.outValid = some false ∧ s.outData = none :=
  State.outputs_of_last_invalid (by rw [h, List.getLast?_replicate, if_neg hn])

/-- Without stages `rst = 1` on the ports keeps `out_valid` 0 and the data outputs without value (R25, R110). -/
theorem State.outputs_of_reset_on_ports {s : State} (h : s.stages = []) (hr : s.ports.rst = true) :
    s.outValid = some false ∧ s.outData = none := by
  have hv : s.outValid = some false := by simp [State.outValid_of_no_stage h, hr]
  exact ⟨hv, State.outData_of_not_valid (by simp [hv])⟩

/-- The whole state after a reset cycle without reads (R110). -/
theorem step_reset {s : State} {c : HostCycle} {rest : List HostCycle} (hs : s.schedule = c :: rest)
    (hq : c.reads = []) (hr : c.inputs.rst = true) :
    step s = .next
      { s with ports := c.inputs, schedule := rest, stages := List.replicate s.stages.length .invalid } := by
  rw [step_of_beforeEdge hs (s.beforeEdge_quiet rest hq), edge_reset hr, State.resetEdge, List.map_const']

/-- Settles O39: the reset edge makes every stage invalid, the last one with them; without stages the outputs follow `rst`
on the ports. -/
theorem resetEdgeInvalidatesStages : Obligations.ResetEdgeInvalidatesStages := by
  intro s inputs rest hr hs
  have hstep := step_reset hs rfl hr
  refine ⟨hstep, fun hne t ht => ?_, fun hnil => State.outputs_of_reset_on_ports hnil hr⟩
  cases hstep.symm.trans ht
  exact State.outputs_of_all_invalid rfl (List.length_pos_iff.mpr hne).ne'

/-- Settles O40: the last reset edge alone decides the stages, and any state accepts the operand of its next cycle. -/
theorem oneResetEdgeCompletesReset : Obligations.OneResetEdgeCompletesReset := by
  intro s cs b rest hne hcs hs
  obtain ⟨t, hrun, -⟩ := run_quiet hs fun c hc => (hcs c hc).2
  obtain ⟨hstages, hsched⟩ := run_stages hs hrun
  rw [← List.dropLast_append_getLast hne, stagesAfterCycles_reset _ (hcs _ (List.getLast_mem hne)).1] at hstages
  have hnil : t.stages = [] ↔ s.stages = [] := by simp [hstages]
  obtain ⟨⟨u, hstep, -, -, hfirst⟩, hports⟩ := everyOperandIsAccepted t b rest hsched
  exact ⟨t, u, hrun, hstages,
    fun h => (State.outputs_of_all_invalid hstages (List.length_pos_iff.mpr h).ne').1,
    hstep, fun h => hfirst (mt hnil.mp h), fun h => (hports (hnil.mpr h)).2⟩

/-- The stage at a place (from 0) is there and its valid bit has a value (R112); `State.outValid_ne_none_iff` ties it to
the output. -/
def StageHasValue (l : List Stage) (k : Nat) : Prop := ∃ st, l[k]? = some st ∧ st.v ≠ none

theorem stageHasValue_congr {l l' : List Stage} {k k' : Nat} (h : l[k]? = l'[k']?) :
    StageHasValue l k ↔ StageHasValue l' k' := by
  rw [StageHasValue, StageHasValue, h]

theorem not_stageHasValue_unwritten (p k : Nat) : ¬ StageHasValue (List.replicate p .unwritten) k := by
  rintro ⟨st, hst, hv⟩
  rw [List.eq_of_mem_replicate (List.mem_of_getElem? hst)] at hv
  exact hv rfl

/-- A reset cycle gives every stage a value (R110). -/
theorem HostCycle.stageHasValue_reset {c : HostCycle} {l : List Stage} {k : Nat} (hr : c.inputs.rst = true)
    (hk : k < l.length) : StageHasValue (c.nextStages l) k :=
  ⟨.invalid, by rw [HostCycle.nextStages_reset hr, List.getElem?_replicate_of_lt hk], by simp [Stage.invalid]⟩

/-- A cycle without reset gives the first stage a value (R23). -/
theorem HostCycle.stageHasValue_first {c : HostCycle} {l : List Stage} (hr : c.inputs.rst = false) (hl : l ≠ []) :
    StageHasValue (c.nextStages l) 0 :=
  ⟨c.entering, by rw [HostCycle.nextStages_shift hr, shiftIn_first _ hl], by simp [HostCycle.entering_eq]⟩

/-- A cycle without reset gives each further stage a value just when the stage before it had one (R23). -/
theorem HostCycle.stageHasValue_next {c : HostCycle} {l : List Stage} {k : Nat} (hr : c.inputs.rst = false)
    (hk : k + 1 < l.length) : StageHasValue (c.nextStages l) (k + 1) ↔ StageHasValue l k :=
  stageHasValue_congr (by rw [HostCycle.nextStages_shift hr, shiftIn_next _ _ hk])

/-- From stages without value, cycles give one to all stages by a reset, and to as many as there are cycles (R112). -/
theorem stageHasValue_stagesAfterCycles {p k : Nat} (cs : List HostCycle) (hk : k < p) :
    StageHasValue (stagesAfterCycles cs (List.replicate p .unwritten)) k ↔
      (∃ c ∈ cs, c.inputs.rst = true) ∨ k + 1 ≤ cs.length := by
  induction cs using List.reverseRecOn generalizing k with
  | nil => exact iff_of_false (not_stageHasValue_unwritten p k) (by simp)
  | append_singleton cs c ih =>
    have hlen : (stagesAfterCycles cs (List.replicate p .unwritten)).length = p := by simp
    rw [stagesAfterCycles_append, stagesAfterCycles_cons, stagesAfterCycles_nil]
    cases hr : c.inputs.rst with
    | true => exact iff_of_true (HostCycle.stageHasValue_reset hr (by rwa [hlen])) (.inl ⟨c, by simp, hr⟩)
    | false =>
      cases k with
      | zero =>
        exact iff_of_true (HostCycle.stageHasValue_first hr (List.ne_nil_of_length_pos (by rwa [hlen]))) (.inr (by simp))
      | succ k =>
        rw [HostCycle.stageHasValue_next hr (by rwa [hlen]), ih (by omega)]
        simp [or_and_right, exists_or, hr]

/-- `out_valid` has a value just when the last stage has one (R25, R112). -/
theorem State.outValid_ne_none_iff {s : State} (h : s.stages ≠ []) :
    s.outValid ≠ none ↔ StageHasValue s.stages (s.stages.length - 1) := by
  have hlast := List.getLast?_eq_some_getLast h
  rw [State.outValid_of_last hlast, StageHasValue, ← List.getLast?_eq_getElem?, hlast]
  simp

/-- Settles O43, by induction on the cycles with the latest one last: a reset edge writes every stage, and any other edge the
first stage and the one behind each written one; `out_valid` is that of the last stage. -/
theorem powerUpValuesAppear : Obligations.PowerUpValuesAppear := by
  intro p cs t hp h
  have hstages : t.stages = stagesAfterCycles cs (List.replicate p .unwritten) :=
    (run_stages (List.append_nil cs).symm h).1
  have hlen : t.stages.length = p := by simp [hstages]
  have hvalue : ∀ k, k < p → (StageHasValue t.stages k ↔ (∃ c ∈ cs, c.inputs.rst = true) ∨ k + 1 ≤ cs.length) := by
    rw [hstages]
    exact fun k => stageHasValue_stagesAfterCycles cs
  refine ⟨hvalue, ?_⟩
  rw [State.outValid_ne_none_iff (List.ne_nil_of_length_pos (by omega)), hlen, hvalue _ (by omega), Nat.sub_add_cancel hp]

end Sys2Proof.Machine
end

section
/-! SUPPORT. The rows and the encoder undo each other: a row finds an instruction's operands in its encoding, and what is
read from a word, by a row or by the decoder, encodes to the word (R49, R52, R56, R57). -/

namespace Sys2Proof

/-- The payload of a NaN operand is the part of its fraction below bit 51. -/
@[simp] theorem payloadField_joinFields (s : BitVec 1) (e : BitVec 11) (p : BitVec 1) (f : BitVec 51) :
    payloadField (joinFields s e (p ++ f)) = f := by
  apply BitVec.eq_of_toNat_eq
  rw [toNat_payloadField, toNat_joinFields, toNat_topBitAppend]
  omega

/-- The operands of an instruction stand where its row reads them, well-formed or not. -/
theorem operands_encode (i : Instr) : i.row.operands (encode i) = i := by
  cases i <;> simp [Instr.row, RowName.operands, encode]

/-- The pattern a well-formed instruction encodes to is one its row selects (R57). -/
theorem row_selects_encode {i : Instr} (h : i.wellFormed = true) : i.row.selects (encode i) = true := by
  cases i with
  | decompose bits => exact Laws.SelectedByItsRow.decompose bits h
  | infinity sign => exact Laws.SelectedByItsRow.infinity sign h
  | quietNaN sign payload => exact Laws.SelectedByItsRow.quietNaN sign payload h
  | signalingNaN sign payload => exact Laws.SelectedByItsRow.signalingNaN sign payload h
  | denormal sign frac => exact Laws.SelectedByItsRow.denormal sign frac h
  | normal sign bexp frac => exact Laws.SelectedByItsRow.normal sign bexp frac h

/-- A row reads its operands from the patterns it selects, and nothing from the others. -/
theorem decodeRow_eq_some_iff {r : RowName} {b : Word} {i : Instr} :
    decodeRow r b = some i ↔ r.selects b = true ∧ r.operands b = i := by
  simp [decodeRow]

/-- The readings of a pattern are DECOMPOSE's and the decoder's (R56). -/
theorem mem_decodeAll {i : Instr} {b : Word} : i ∈ decodeAll b ↔ i = .decompose b ∨ i = decode b := by
  simp [decodeAll]

/-- Each reading of a pattern is what some row reads from it. -/
theorem exists_decodeRow_of_mem_decodeAll {b : Word} {i : Instr} (h : i ∈ decodeAll b) :
    ∃ r, decodeRow r b = some i := by
  obtain rfl | rfl := mem_decodeAll.mp h
  · exact ⟨.decompose, decodeRow_eq_some_iff.mpr ⟨selects_decompose b, rfl⟩⟩
  · exact ⟨classRow b, decodeRow_eq_some_iff.mpr ⟨classRow_selects b, rfl⟩⟩

/-- The row of a well-formed instruction reads its encoding as the instruction. -/
theorem decodeRow_encode {i : Instr} (h : i.wellFormed = true) : decodeRow i.row (encode i) = some i :=
  decodeRow_eq_some_iff.mpr ⟨row_selects_encode h, operands_encode i⟩

/-- The decoder reads the encoding of a well-formed class-row instruction as the instruction: of the class rows only the
operand's own selects it. -/
theorem decode_encode {i : Instr} (h : i.wellFormed = true) (hrow : i.row ≠ .decompose) : decode (encode i) = i := by
  have hclass : i.row = classRow (encode i) :=
    (Machine.selects_iff_eq_classRow hrow (encode i)).mp (row_selects_encode h)
  rw [decode, ← hclass, operands_encode]

/-- An instruction of the row DECOMPOSE is DECOMPOSE of its encoding. -/
theorem eq_decompose_encode {i : Instr} (h : i.row = .decompose) : i = .decompose (encode i) :=
  (operands_encode i).symm.trans (by rw [h]; rfl)

/-- Settles O3: its row selects the encoding and finds the operands in it; and the row is DECOMPOSE, which is always among
the readings, or the class row of the encoding, which the decoder takes. -/
theorem decodeOfEncode : Obligations.DecodeOfEncode := by
  intro i h
  refine ⟨decodeRow_encode h, mem_decodeAll.mpr ?_, decode_encode h⟩
  by_cases hrow : i.row = .decompose
  · exact .inl (eq_decompose_encode hrow)
  · exact .inr (decode_encode h hrow).symm

/-- Settles O4: each reading is that of a row which selects the word, and such a row's operands are well-formed and encode
to the word. -/
theorem encodeOfDecode : Obligations.EncodeOfDecode := by
  intro b i h
  obtain ⟨r, hr⟩ : ∃ r, decodeRow r b = some i := h.elim exists_decodeRow_of_mem_decodeAll id
  obtain ⟨hsel, rfl⟩ := decodeRow_eq_some_iff.mp hr
  exact ⟨operands_wellFormed hsel, encode_operands hsel⟩

end Sys2Proof
end
